-- ==== Sys2Proof/Word.lean ====
section
/-! DEFINITION. The engine's value types: bytes, command words and fixed-size byte arrays (00_scope R6, R8, R10). -/

namespace Sys2Proof

/-- An 8-bit unsigned value; all data of the engine is bytes (00_scope R6, R8). -/
abbrev Byte := BitVec 8

/-- One 16-bit command word, `cmd_word[15:0]` (30_encoding R56). -/
abbrev Word := BitVec 16

/-- A named array of `n` bytes of the state (00_scope R10). -/
abbrev Bytes (n : Nat) := Vector Byte n

end Sys2Proof
end

