-- ==== Sys2Proof/Config.lean ====
section
/-! DEFINITION. What the spec leaves to an implementation or leaves unspecified: the latency parameters of 00_scope R7 and the
unspecified values of 93_implementation_defined U1 to U3. None has a body, so no proof can use its value.
They are the free values of ONE engine. Several instances (60_exceptions R112) share them, which is a DESIGN CHOICE and unsafe for
claims that compare two instances (log 16). -/

namespace Sys2Proof

/-- Which latency parameter of R7 a pending command is subject to. -/
inductive LatencyKind where
  | /-- LAT_ABSORB: an ABSORB that does not fill the block. -/ absorb
  | /-- LAT_DRAIN: an ABSORB that fills the block. -/ drain
  | /-- LAT_FINALIZE. -/ finalize
  | /-- LAT_RESET. -/ reset
  | /-- LAT_ILLEGAL: an illegal command word. -/ illegal
  deriving DecidableEq, Repr

/-- FREE VALUE (log 2, DESIGN CHOICE, safe): the edges the `n`-th draw waits beyond the first one. -/
opaque Config.latencyDraw : LatencyKind → Nat → Nat

/-- R7: a latency is finite and at least 1 cycle. -/
def Config.latency (k : LatencyKind) (n : Nat) : Nat := Config.latencyDraw k n + 1

/-- FREE VALUE (log 5, safe): `STATUS[7:1]` read while BUSY = 1, at the `n`-th draw (R43, U1). -/
opaque Config.busyStatus : Nat → BitVec 7

/-- FREE VALUE (log 6, safe): `dout_byte` read while a FINALIZE is pending, at the `n`-th draw (R42, R43, U2). -/
opaque Config.busyDout : Nat → Byte

/-- FREE VALUE (log 10, safe): `ST` before the first edge with `rst = 1` (R117, U3). -/
opaque Config.powerUpSt : Bytes 48
/-- FREE VALUE (log 10, safe): `BLK` before the first edge with `rst = 1`. -/
opaque Config.powerUpBlk : Bytes 16
/-- FREE VALUE (log 10, safe): `FILL` before the first edge with `rst = 1`. -/
opaque Config.powerUpFill : BitVec 4
/-- FREE VALUE (log 10, safe): `CK` before the first edge with `rst = 1`. -/
opaque Config.powerUpCk : Bytes 16
/-- FREE VALUE (log 10, safe): `ABSORBING` before the first edge with `rst = 1`. -/
opaque Config.powerUpAbsorbing : Bool
/-- FREE VALUE (log 10, safe): `DOUT` before the first edge with `rst = 1`. -/
opaque Config.powerUpDout : Bytes 16
/-- FREE VALUE (log 10, safe): `DVALID` before the first edge with `rst = 1`. -/
opaque Config.powerUpDvalid : Bool
/-- FREE VALUE (log 10, safe): `ERR` before the first edge with `rst = 1`. -/
opaque Config.powerUpErr : Bool
/-- FREE VALUE (log 10, safe): `PEND` before the first edge with `rst = 1`, possibly any word (R117). -/
opaque Config.powerUpPend : Option Word
/-- FREE VALUE (log 10, safe): how long a word found pending at power-up would still wait. -/
opaque Config.powerUpLatLeft : Nat

end Sys2Proof
end

