-- ==== Sys2Proof/Syntax.lean ====
section
/-! DEFINITION. The commands of the engine, one constructor per row of spec/opcode_table.json (30_encoding R59). -/

namespace Sys2Proof

/-- A legal command. ABSORB carries its `DATA` field, the message byte; FINALIZE and RESET take no operand
(30_encoding R58, R59). An illegal word is no command of this type: see `Command` in Decode.lean. -/
inductive Instr where
  | absorb (b : Byte)
  | finalize
  | reset
  deriving DecidableEq, Repr

end Sys2Proof
end

