-- ==== Sys2Proof/WellFormed.lean ====
section
/-! DEFINITION. Well-formed commands: whether a command's operand field may hold the value it holds, and whether a pair of
raw fields is one of the legal encodings (30_encoding R58, R60, R61). -/

namespace Sys2Proof

/-- R58: all 256 values of ABSORB's `DATA` are legal, and FINALIZE and RESET have no operand, so every term of `Instr` is
well-formed: the operand's type is exactly the field. -/
def Instr.wellFormed : Instr → Bool
  | .absorb _ => true
  | .finalize => true
  | .reset => true

/-- The two fields of the one format `CMD` before any check: `OP` and `DATA` as numbers of any size (R56). -/
structure Fields where
  op : Nat
  data : Nat
  deriving DecidableEq, Repr

/-- R56: each field is 8 bits wide. -/
def Fields.fits (f : Fields) : Bool := f.op < 256 && f.data < 256

/-- R59: `OP` is one of the three opcodes. -/
def Fields.opcodeKnown (f : Fields) : Bool := f.op == 0x01 || f.op == 0x02 || f.op == 0x03

/-- R60: the reserved `DATA` of FINALIZE and RESET is 0x00. -/
def Fields.reservedZero (f : Fields) : Bool := !(f.op == 0x02 || f.op == 0x03) || f.data == 0x00

/-- R59 to R61: the field pair encodes a command. -/
def Fields.wellFormed (f : Fields) : Bool := f.fits && f.opcodeKnown && f.reservedZero

end Sys2Proof
end

