-- ==== Sys2Proof/Decode.lean ====
section
/-! DEFINITION. The decoder, total on all 16-bit words (30_encoding R63), the opcode map it follows (R59), and the encoder. -/

namespace Sys2Proof

/-- R56: `OP = w[15:8]`. -/
def opField (w : Word) : Byte := w.extractLsb' 8 8

/-- R56, R58: `DATA = w[7:0]`, a raw byte with no extension, scaling or shifting. -/
def dataField (w : Word) : Byte := w.extractLsb' 0 8

/-- Why a word is illegal (R61; 60_exceptions R101: the two causes, which the host cannot tell apart). -/
inductive IllegalReason where
  | /-- `OP` is none of 0x01, 0x02, 0x03. -/ reservedOpcode
  | /-- `OP` is 0x02 or 0x03 and `DATA` is not 0x00 (R60). -/ reservedData
  deriving DecidableEq, Repr

/-- What a 16-bit word decodes to (R63): a command, or `ILLEGAL(w)` with its cause. -/
inductive Command where
  | instr (i : Instr)
  | illegal (why : IllegalReason) (w : Word)
  deriving DecidableEq, Repr

/-- The command a word stands for, if it is legal. -/
def Command.instr? : Command → Option Instr
  | .instr i => some i
  | .illegal _ _ => none

/-- R63 `Decode`. -/
def decode (w : Word) : Command :=
  if opField w = 0x01#8 then .instr (.absorb (dataField w))
  else if opField w = 0x02#8 then
    if dataField w = 0x00#8 then .instr .finalize else .illegal .reservedData w
  else if opField w = 0x03#8 then
    if dataField w = 0x00#8 then .instr .reset else .illegal .reservedData w
  else .illegal .reservedOpcode w

/-- The word of a command, from the opcode map R59: `OP` in the high byte, `DATA` in the low byte. -/
def encode : Instr → Word
  | .absorb b => 0x01#8 ++ b
  | .finalize => 0x0200#16
  | .reset => 0x0300#16

/-- A row of the opcode map (R59). -/
structure OpcodeRow where
  mnemonic : String
  pattern : Word
  mask : Word
  deriving DecidableEq, Repr

/-- R59: a word selects a row when `(w AND mask) = match`. -/
def OpcodeRow.selects (r : OpcodeRow) (w : Word) : Bool := w &&& r.mask == r.pattern

/-- R59, the opcode map. -/
def opcodeMap : List OpcodeRow :=
  [⟨"ABSORB", 0x0100#16, 0xFF00#16⟩, ⟨"FINALIZE", 0x0200#16, 0xFFFF#16⟩, ⟨"RESET", 0x0300#16, 0xFFFF#16⟩]

/-- The row of the opcode map a command belongs to. -/
def Instr.mnemonic : Instr → String
  | .absorb _ => "ABSORB"
  | .finalize => "FINALIZE"
  | .reset => "RESET"

/-- The command word whose bits are `w` in the numbering of spec/opcode_table.json: bit 0 is `cmd_word[0]`. Bits from
`nbits` up are 0, and a command has 16 bits (log 17). -/
def tableWord (nbits w : Nat) : Word := BitVec.ofNat 16 (w % 2 ^ nbits)

/-- The command the decoder reads from a table word. -/
def decodeTableWord (nbits w : Nat) : Option Instr := (decode (tableWord nbits w)).instr?

end Sys2Proof
end

