-- ==== Sys2Proof/Machine/Datapath.lean ====
section
/-! DEFINITION. The datapath: checksum accumulator and block compressor (40_datapath R72 to R79). Each loop of the spec is a
recursion over the bytes in index order that carries the loop's scalar (`last` or `t`); Laws/Datapath.lean proves it equal to
the spec's indexed loop. `accumulate`, `mix` and `sbox` are marked irreducible so that no elaborator check unrolls their loops
by accident; the kernel evaluates them all the same. -/

namespace Sys2Proof.Machine

/-- An array from a list of its length. -/
def bytesOfList {n : Nat} (l : List Byte) (h : l.length = n) : Bytes n := ⟨l.toArray, by simpa using h⟩

/-- `n` bytes of 0x00. -/
def zeroBytes (n : Nat) : Bytes n := bytesOfList (List.replicate n 0x00#8) (List.length_replicate ..)

/-- R73, the loop: `CK[i] <- CK[i] XOR SBOX[M[i] XOR last]`, then `last <- CK[i]`, the just-updated value. -/
def accumulateFrom : List Byte → List Byte → Byte → List Byte
  | c :: cs, m :: ms, last =>
    let c' := c ^^^ sbox (m ^^^ last)
    c' :: accumulateFrom cs ms c'
  | cs, _, _ => cs

@[simp] theorem length_accumulateFrom (cs ms : List Byte) (last : Byte) :
    (accumulateFrom cs ms last).length = cs.length := by
  induction cs generalizing ms last with
  | nil => rfl
  | cons c cs ih => cases ms <;> simp [accumulateFrom, ih]

/-- R73 `Accumulate(CK, M)`: the chain starts from `last = CK[15]`, read once at entry. -/
@[irreducible] def accumulate (ck m : Bytes 16) : Bytes 16 :=
  bytesOfList (accumulateFrom ck.toList m.toList ck[15]) (by simp [length_accumulateFrom])

/-- R16: region A of `ST`, the intermediate digest. -/
def regionA (st : Bytes 48) : Bytes 16 := bytesOfList (st.toList.take 16) (by simp)

/-- R75 `Compress_expand`: region B becomes `M` and region C becomes `M XOR A`. -/
def expand (st : Bytes 48) (m : Bytes 16) : Bytes 48 :=
  bytesOfList ((regionA st).toList ++ m.toList ++ List.zipWith (· ^^^ ·) m.toList (regionA st).toList) (by simp)

/-- R76, the inner loop: `ST[k] <- ST[k] XOR SBOX[t]`, then `t <- ST[k]`, the just-updated byte (reading (a) of
90_conflicts C2). Answers the new bytes and the last `t`. -/
def mixPass : List Byte → Byte → List Byte × Byte
  | [], t => ([], t)
  | b :: bs, t =>
    let b' := b ^^^ sbox t
    let r := mixPass bs b'
    (b' :: r.1, r.2)

@[simp] theorem length_mixPass (l : List Byte) (t : Byte) : (mixPass l t).1.length = l.length := by
  induction l generalizing t with
  | nil => rfl
  | cons b bs ih => simp [mixPass, ih]

/-- R76, one round `j`: the pass over all bytes, then `t <- (t + j) mod 256`. -/
def mixRound (p : List Byte × Byte) (j : Nat) : List Byte × Byte :=
  let q := mixPass p.1 p.2
  (q.1, q.2 + BitVec.ofNat 8 j)

/-- R76: the given rounds, in order. -/
def mixRounds (js : List Nat) (p : List Byte × Byte) : List Byte × Byte := js.foldl mixRound p

@[simp] theorem length_mixRounds (js : List Nat) (p : List Byte × Byte) :
    (mixRounds js p).1.length = p.1.length := by
  induction js generalizing p with
  | nil => rfl
  | cons j js ih => simpa [mixRounds, mixRound, length_mixPass] using ih (mixRound p j)

/-- R76 `Compress_mix`: 18 rounds `j = 0..17`, starting from `t = 0`. -/
@[irreducible] def mix (st : Bytes 48) : Bytes 48 :=
  bytesOfList (mixRounds (List.range 18) (st.toList, 0)).1 (by simp [length_mixRounds])

/-- R77 `Compress(ST, M)`. -/
def compress (st : Bytes 48) (m : Bytes 16) : Bytes 48 := mix (expand st m)

end Sys2Proof.Machine
end

