-- ==== Sys2Proof/Machine/State.lean ====
section
/-! DEFINITION. The engine's state (10_state R15), the pins the host drives, the state after reset (R34) and at power-up
(70_reset_and_hazards R117), and the reasons a step can stop. -/

namespace Sys2Proof.Machine

/-- No fault exists: "No behaviour of this engine is treated as `fault` or `stuck`" (93_implementation_defined, Part 1;
40_datapath R81; 60_exceptions R100). The type has no constructor, so nobody raises one and no claim can rest on one (safe). -/
inductive Fault where
  deriving DecidableEq, Repr

/-- Why a command would be refused. -/
inductive Refusal where
  | /-- An instruction that has no meaning yet, by its mnemonic. Raised by a refused arm of `exec` only; every arm has its
    meaning, so no step raises it (safe). -/
    notModelled (mnemonic : String)
  deriving DecidableEq, Repr

/-- What the host drives on the engine's inputs at one clock edge (10_state R27, 70_reset_and_hazards R116). The input
`dout_sel` selects a read and is an argument of `readDout`. -/
structure Pins where
  /-- `rst`, active-high and synchronous. -/
  rst : Bool
  /-- `cmd_valid`. -/
  cmdValid : Bool
  /-- `cmd_word[15:0]`. -/
  cmdWord : Word
  deriving DecidableEq, Repr

/-- No reset and no command offered. -/
def Pins.idle : Pins := ⟨false, false, 0⟩

/-- A command word offered. -/
def Pins.offer (w : Word) : Pins := ⟨false, true, w⟩

/-- `rst` asserted. -/
def Pins.assertRst : Pins := ⟨true, false, 0⟩

/-- R15 `EngineState`, and three fields of the model's own: `latLeft`, `draws`, `inputs`. -/
structure State where
  /-- `ST`, the 48-byte working state (R16). -/
  st : Bytes 48
  /-- `BLK`, the 16-byte input buffer (R18). -/
  blk : Bytes 16
  /-- `FILL`, the fill count (R19). -/
  fill : BitVec 4
  /-- `CK`, the running checksum (R20). -/
  ck : Bytes 16
  /-- `ABSORBING`, the phase flag (R21). -/
  absorbing : Bool
  /-- `DOUT`, the digest output register (R22). -/
  dout : Bytes 16
  /-- `DVALID`, the digest-valid flag (R23). -/
  dvalid : Bool
  /-- `ERR`, the sticky illegal-command flag (R24). -/
  err : Bool
  /-- `PEND`, the command word accepted and not completed (R25). -/
  pend : Option Word
  /-- The model's own: the edges the pending command still waits before the edge it completes at (log 1, log 2). -/
  latLeft : Nat
  /-- The model's own: how many free values have been drawn (log 4). -/
  draws : Nat
  /-- The model's own: what the host drives at the coming edges, oldest first; idle pins after the end (log 3). -/
  inputs : List Pins
  deriving DecidableEq, Repr

/-- The machine right after hard reset: every field of R15 at its value of R34. The model's own fields start at 0, 0 and
empty (log 4). -/
def State.reset : State where
  st := zeroBytes 48
  blk := zeroBytes 16
  fill := 0#4
  ck := zeroBytes 16
  absorbing := false
  dout := zeroBytes 16
  dvalid := false
  err := false
  pend := none
  latLeft := 0
  draws := 0
  inputs := []

/-- The machine at power-up, before the first edge with `rst = 1`: every field of R15 is a draw (70_reset_and_hazards R117,
U3; log 10). The host's coming pin values are given. Every instance made by it holds the same draws (log 16). -/
def State.powerUp (inputs : List Pins) : State where
  st := Config.powerUpSt
  blk := Config.powerUpBlk
  fill := Config.powerUpFill
  ck := Config.powerUpCk
  absorbing := Config.powerUpAbsorbing
  dout := Config.powerUpDout
  dvalid := Config.powerUpDvalid
  err := Config.powerUpErr
  pend := Config.powerUpPend
  latLeft := Config.powerUpLatLeft
  draws := 0
  inputs := inputs

end Sys2Proof.Machine
end

