-- ==== Sys2Proof/Machine/Flags.lean ====
section
/-! DEFINITION. BUSY, the STATUS fields, `cmd_ready` and the engine's phase (10_state R25, R26, R30). No command computes an
arithmetic flag (40_datapath R69). -/

namespace Sys2Proof.Machine

/-- R25: `BUSY` is `PEND ≠ none`. -/
def State.busy (s : State) : Bool := s.pend.isSome

/-- R25, 70_reset_and_hazards R116: `cmd_ready = NOT BUSY AND NOT rst`. -/
def State.cmdReady (rst : Bool) (s : State) : Bool := !s.busy && !rst

/-- R26, bits 7:1 of STATUS while the engine is not busy: `{FILL, ABSORBING, ERR, DVALID}`. -/
def State.statusFields (s : State) : BitVec 7 :=
  s.fill ++ BitVec.ofBool s.absorbing ++ BitVec.ofBool s.err ++ BitVec.ofBool s.dvalid

/-- R26, R43: the whole STATUS byte; while BUSY = 1 its bits 7:1 are the unspecified `free`. -/
def State.statusByte (free : BitVec 7) (s : State) : Byte :=
  (if s.busy then free else s.statusFields) ++ BitVec.ofBool s.busy

/-- ARITH's engine states (R30). -/
inductive Phase where
  | idle
  | absorbing
  | finalizing
  deriving DecidableEq, Repr

/-- R30: whether `PEND` holds a word that decodes to FINALIZE. -/
def State.finalizePending (s : State) : Bool :=
  match s.pend with
  | some w => decode w == .instr .finalize
  | none => false

/-- R30: ARITH's engine state as a condition on the spec's state. -/
def State.phase (s : State) : Phase :=
  if s.finalizePending then .finalizing else if s.absorbing then .absorbing else .idle

end Sys2Proof.Machine
end

