-- ==== Sys2Proof/Machine/Operands.lean ====
section
/-! DEFINITION. What the commands compute from their operands: the padded block of FINALIZE (42_finalize R88) and the buffer
with one more message byte (41_absorb R82). The operand byte itself is the decoder's raw `DATA` (30_encoding R58). -/

namespace Sys2Proof.Machine

/-- `BLK[FILL] <- b` (R82). -/
def stageByte (fill : BitVec 4) (b : Byte) (blk : Bytes 16) : Bytes 16 := blk.set fill.toNat b fill.isLt

/-- R88: the pad value `p = 16 − FILL`, 1..16. -/
def padValue (fill : BitVec 4) : Byte := BitVec.ofNat 8 (16 - fill.toNat)

/-- R88: `BLK[FILL..15]` set to the pad value, `BLK[0..FILL−1]` kept. -/
def padded (fill : BitVec 4) (blk : Bytes 16) : Bytes 16 :=
  bytesOfList (blk.toList.take fill.toNat ++ List.replicate (16 - fill.toNat) (padValue fill))
    (by have := fill.isLt; simp; omega)

end Sys2Proof.Machine
end

