-- ==== Sys2Proof/Machine/Ops.lean ====
section
/-! DEFINITION. The named operations on the state that the commands and the clock edge are written with, among them the one
exception (60_exceptions R102) and hard reset (70_reset_and_hazards R116). -/

namespace Sys2Proof.Machine

/-- Go on from a next state; a fault or a refusal ends the run. -/
def andThen {α β φ ρ : Type} (o : Host.Outcome α φ ρ) (f : α → Host.Outcome β φ ρ) : Host.Outcome β φ ρ :=
  match o with
  | .next a => f a
  | .fault r => .fault r
  | .refused r => .refused r

/-- R82: `BLK[FILL] <- b`, `ABSORBING <- 1`. -/
def State.absorbByte (b : Byte) (s : State) : State :=
  { s with blk := stageByte s.fill b s.blk, absorbing := true }

/-- R82: `FILL <- FILL + 1`, used when `FILL < 15`. -/
def State.advanceFill (s : State) : State := { s with fill := s.fill + 1#4 }

/-- R79: `Accumulate(CK, BLK)`; `Compress(ST, BLK)`, shared by the drain and by FINALIZE step 3. -/
def State.mixBlock (s : State) : State :=
  { s with ck := accumulate s.ck s.blk, st := compress s.st s.blk }

/-- R83 `Drain()`: mix the block, then `FILL <- 0`; `BLK` keeps its bytes (10_state R32, log 8). -/
def State.drain (s : State) : State := { s.mixBlock with fill := 0#4 }

/-- R87 steps 1 and 2, R88: pad the staged block. -/
def State.padBlock (s : State) : State := { s with blk := padded s.fill s.blk }

/-- R87 step 4: `Compress(ST, CK)`. -/
def State.mixChecksum (s : State) : State := { s with st := compress s.st s.ck }

/-- R87 step 5: `DOUT <- ST[0..15]`, with no offset (42_finalize R94), and `DVALID <- 1`. -/
def State.latchDigest (s : State) : State := { s with dout := regionA s.st, dvalid := true }

/-- R87 step 6 and R96: the working state back to zero, `ABSORBING <- 0` (Idle). -/
def State.clearWorking (s : State) : State :=
  { s with st := zeroBytes 48, blk := zeroBytes 16, fill := 0#4, ck := zeroBytes 16, absorbing := false }

/-- R96: `ERR <- 0`; with hard reset the only way an exception's mark is cleared. There is no return from an exception
(60_exceptions R106). -/
def State.clearErr (s : State) : State := { s with err := false }

/-- R102 `IllegalExec(w)`, the engine's one exception: `ERR <- 1`, and nothing else changes. Neither `w` nor a cause is
recorded (60_exceptions R101), and there is no control transfer (R105). -/
def State.raiseIllegalCommand (_w : Word) (s : State) : State := { s with err := true }

/-- 30_encoding R64 `Complete`, its last part: `PEND <- none`. -/
def State.clearPend (s : State) : State := { s with pend := none }

/-- 00_scope R7: which latency parameter the word `w` has when it is accepted in `s`. -/
def latencyKind (w : Word) (s : State) : LatencyKind :=
  match decode w with
  | .instr (.absorb _) => if s.fill = 15#4 then .drain else .absorb
  | .instr .finalize => .finalize
  | .instr .reset => .reset
  | .illegal _ _ => .illegal

/-- 30_encoding R57, R64 `Accept(w)`: `PEND <- some(w)`. The command completes at the `LAT`-th edge after this one, so it
waits through `LAT − 1` edges; the latency is drawn here (log 1, log 2). -/
def State.accept (w : Word) (s : State) : State :=
  { s with
    pend := some w
    latLeft := Config.latency (latencyKind w s) s.draws - 1
    draws := s.draws + 1 }

/-- One edge of a busy period that is not over yet. -/
def State.waitEdge (n : Nat) (s : State) : State := { s with latLeft := n }

/-- 70_reset_and_hazards R116, 10_state R34: every field of R15 takes its reset value, so a pending command is abandoned. What
the host drives next and the count of free values are the model's own and stay (log 4). -/
def State.hardReset (s : State) : State := { State.reset with draws := s.draws, inputs := s.inputs }

/-- The model's own: the pin values still to come. -/
def State.withInputs (ps : List Pins) (s : State) : State := { s with inputs := ps }

/-- The model's own: one more free value has been drawn. -/
def State.countDraw (s : State) : State := { s with draws := s.draws + 1 }

end Sys2Proof.Machine
end

