-- ==== Sys2Proof/Machine/Absorb.lean ====
section
/-! DEFINITION. The meaning of ABSORB (41_absorb R82, R83). -/

namespace Sys2Proof.Machine

/-- R82 `AbsorbExec(b)`: stage the byte; if it completes the block (`FILL = 15` on entry) drain it in the same command. -/
def execAbsorb (b : Byte) (s : State) : Host.Outcome State Fault Refusal :=
  .next (if s.fill = 15#4 then (s.absorbByte b).drain else (s.absorbByte b).advanceFill)

end Sys2Proof.Machine
end

