-- ==== Sys2Proof/Machine/Finalize.lean ====
section
/-! DEFINITION. The meaning of FINALIZE (42_finalize R87, R93). -/

namespace Sys2Proof.Machine

/-- R87 `FinalizeExec()`, steps 1 to 6 in order. -/
def execFinalize (s : State) : Host.Outcome State Fault Refusal :=
  .next s.padBlock.mixBlock.mixChecksum.latchDigest.clearWorking

end Sys2Proof.Machine
end

