-- ==== Sys2Proof/Machine/SoftReset.lean ====
section
/-! DEFINITION. The meaning of RESET (43_reset R96). -/

namespace Sys2Proof.Machine

/-- R96 `ResetExec()`: clear the working state and `ERR`; `DOUT` and `DVALID` unchanged. -/
def execReset (s : State) : Host.Outcome State Fault Refusal :=
  .next s.clearWorking.clearErr

end Sys2Proof.Machine
end

