-- ==== Sys2Proof/Machine/Dispatch.lean ====
section
/-! DEFINITION. `Exec` on a legal command (30_encoding R63), one arm per constructor. It leaves `PEND` to the completion. -/

namespace Sys2Proof.Machine

def exec (i : Instr) (s : State) : Host.Outcome State Fault Refusal :=
  match i with
  | .absorb b => Sys2Proof.Machine.execAbsorb b s
  | .finalize => Sys2Proof.Machine.execFinalize s
  | .reset => Sys2Proof.Machine.execReset s

end Sys2Proof.Machine
end

