-- ==== Sys2Proof/Machine/Clock.lean ====
section
/-! DEFINITION. One clock edge: completion, acceptance, hard reset and their priority (30_encoding R57, R63, R64;
60_exceptions R104). -/

namespace Sys2Proof.Machine

/-- R63 `Exec(w, s)`, on every 16-bit word: a legal command's effect, or the illegal-command exception. -/
def execWord (w : Word) (s : State) : Host.Outcome State Fault Refusal :=
  match decode w with
  | .instr i => exec i s
  | .illegal _ w' => .next (s.raiseIllegalCommand w')

/-- R64 `Complete`: `s <- Exec(w, s)`, then `PEND <- none`. -/
def complete (w : Word) (s : State) : Host.Outcome State Fault Refusal :=
  andThen (execWord w s) fun t => .next t.clearPend

/-- One clock edge with the pins at `p`. R104, highest first: hard reset; completion of the pending command, if it is due
at this edge; acceptance of the word offered, which needs `BUSY = 0` before the edge. A word offered while the engine is busy
is not sampled (R57), and an edge on which none of these happens changes nothing (60_exceptions R114). -/
def clockEdge (p : Pins) (s : State) : Host.Outcome State Fault Refusal :=
  if p.rst then .next s.hardReset
  else
    match s.pend with
    | some w =>
      match s.latLeft with
      | 0 => complete w s
      | n + 1 => .next (s.waitEdge n)
    | none => if p.cmdValid then .next (s.accept p.cmdWord) else .next s

/-- R47: the effects of a sequence of accepted words, each applied to the state the one before left. -/
def execWords : List Word → State → Host.Outcome State Fault Refusal
  | [], s => .next s
  | w :: ws, s => andThen (execWord w s) (execWords ws)

/-- The pins of the coming edge: the first of the host's pin values, idle pins after their end (log 3). -/
def State.pins (s : State) : Pins := s.inputs.headD Pins.idle

/-- The state the coming edge acts on: its own pin values are used up. -/
def State.takePins (s : State) : State := s.withInputs s.inputs.tail

/-- The state in which the word `w` has been accepted and completes at the very next edge: pending, no wait left, and no
reset at that edge (log 17). -/
def State.withPending (w : Word) (s : State) : State :=
  { s with pend := some w, latLeft := 0, inputs := Pins.idle :: s.inputs }

end Sys2Proof.Machine
end

