-- ==== Sys2Proof/Machine/Step.lean ====
section
/-! DEFINITION. One step of the engine is one clock edge with the pin values the host drives there. -/

namespace Sys2Proof.Machine

/-- One clock edge (log 1). -/
def step (s : State) : Host.Outcome State Fault Refusal := clockEdge s.pins s.takePins

/-- `s` with the table word `w` accepted and due at the next edge, so that the next step runs exactly it (log 17). The engine
fetches no instructions (10_state R29): this stands for the acceptance of the word on the command port. -/
def State.withFetchWord (s : State) (nbits w : Nat) : State := s.withPending (tableWord nbits w)

end Sys2Proof.Machine
end

