-- ==== Sys2Proof/Machine/Ports.lean ====
section
/-! DEFINITION. The host's reads: the STATUS port and the digest read port (20_memory R41 to R43, R46). A read is an
observation, not a step (30_encoding R64): it changes no field of the spec's; the model's own count of free values moves on
when an unspecified value is read, so that two reads may differ (log 13). -/

namespace Sys2Proof.Machine

/-- A read of `status` (10_state R26; R43: while BUSY = 1 bits 7:1 are a free value). -/
def readStatus (s : State) : Byte × State :=
  (s.statusByte (Config.busyStatus s.draws), if s.busy then s.countDraw else s)

/-- A read of `dout_byte` with `dout_sel = sel` (R42; while a FINALIZE is pending a free value). -/
def readDout (sel : BitVec 4) (s : State) : Byte × State :=
  if s.finalizePending then (Config.busyDout s.draws, s.countDraw) else (s.dout[sel.toNat]'sel.isLt, s)

end Sys2Proof.Machine
end

