-- ==== Sys2Proof/Machine/HostRun.lean ====
section
/-! DEFINITION. What a host does with the ports: host actions and host programs (00_scope R12; 30_encoding R65;
60_exceptions R115; 70_reset_and_hazards R116, R120, R129; log 14). Every clock edge is a `step` of the engine. -/

namespace Sys2Proof.Machine

/-- One thing the host does (R115). -/
inductive HostAction where
  | /-- Offer a command word and hold it until it is accepted (R120). -/ send (w : Word)
  | /-- `WAIT`: read STATUS until BUSY = 0. -/ wait
  | /-- `READ rD, idx`. -/ read (rd : Nat) (idx : BitVec 4)
  | /-- `RDSTAT rD`. -/ rdstat (rd : Nat)
  | /-- Assert `rst` for `n + 1` edges (R116). -/ assertRst (n : Nat)
  | /-- Do nothing for `n` edges. -/ pause (n : Nat)
  deriving DecidableEq, Repr

/-- A host in the middle of a program: the engine and the values read so far, each with the host variable it went to,
oldest first. -/
structure HostState where
  engine : State
  reads : List (Nat × Byte)
  deriving DecidableEq, Repr

/-- The host variable `rd`: the last value read into it (0 before any). -/
def HostState.var (rd : Nat) (h : HostState) : Byte :=
  ((h.reads.filter fun e => e.1 == rd).getLast?.map Prod.snd).getD 0

/-- One clock edge with the host's pins at `p`. -/
def drive (p : Pins) (s : State) : Host.Outcome State Fault Refusal := step (s.withInputs (p :: s.inputs))

/-- `n` edges with the pins at `p`. -/
def driveFor (p : Pins) : Nat → State → Host.Outcome State Fault Refusal
  | 0, s => .next s
  | n + 1, s => andThen (drive p s) (driveFor p n)

/-- Offer `w` at every edge until an edge with `cmd_ready = 1` has accepted it (R57, R120). `latLeft + 1` edges are enough for
the engine to become ready, and the edge after them accepts. -/
def sendWord (w : Word) : Nat → State → Host.Outcome State Fault Refusal
  | 0, s => drive (Pins.offer w) s
  | n + 1, s => if s.busy then andThen (drive (Pins.offer w) s) (sendWord w n) else drive (Pins.offer w) s

/-- The polling loop of `WAIT` (R65): read STATUS; while its bit 0 is 1 let an edge pass and read again. -/
def waitIdle : Nat → State → Host.Outcome State Fault Refusal
  | 0, s => .next s
  | n + 1, s =>
    let r := readStatus s
    if r.1.getLsbD 0 then andThen (drive Pins.idle r.2) (waitIdle n) else .next r.2

/-- What one host action does. -/
def HostAction.run (a : HostAction) (h : HostState) : Host.Outcome HostState Fault Refusal :=
  let withEngine := fun s => Host.Outcome.next { h with engine := s }
  match a with
  | .send w => andThen (sendWord w (h.engine.latLeft + 1) h.engine) withEngine
  | .wait => andThen (waitIdle (h.engine.latLeft + 2) h.engine) withEngine
  | .read rd idx =>
    let r := readDout idx h.engine
    .next { engine := r.2, reads := h.reads ++ [(rd, r.1)] }
  | .rdstat rd =>
    let r := readStatus h.engine
    .next { engine := r.2, reads := h.reads ++ [(rd, r.1)] }
  | .assertRst n => andThen (driveFor Pins.assertRst (n + 1) h.engine) withEngine
  | .pause n => andThen (driveFor Pins.idle n h.engine) withEngine

/-- A host program: its actions in order (R12). -/
def runHost : List HostAction → HostState → Host.Outcome HostState Fault Refusal
  | [], h => .next h
  | a :: as, h => andThen (a.run h) (runHost as)

/-- R129: a run has ended when its last action is done and no command is pending. -/
def HostState.ended (h : HostState) : Bool := !h.engine.busy

end Sys2Proof.Machine
end

