-- ==== Sys2Proof/Machine/Assembler.lean ====
section
/-! DEFINITION. The assembler's statements and pseudo-instructions (30_encoding R65, R66) and their expansion into host
actions. Statements are abstract: how a number or a name is spelled is not modelled (log 15). -/

namespace Sys2Proof.Machine

/-- The operand `imm8` of ABSORB (R65): a number 0..255, or a character meaning its ASCII code. -/
inductive Imm8 where
  | num (n : Nat)
  | chr (c : Char)
  deriving DecidableEq, Repr

/-- The value of an `imm8`. -/
def Imm8.value : Imm8 → Byte
  | .num n => BitVec.ofNat 8 n
  | .chr c => BitVec.ofNat 8 c.toNat

/-- R65: a number is 0..255, a character has an ASCII code. -/
def Imm8.wellFormed : Imm8 → Bool
  | .num n => n < 256
  | .chr c => c.toNat < 128

/-- A statement of a host program (R65) or a pseudo-instruction (R66). A quoted string is the list of its characters. -/
inductive AsmStmt where
  | absorb (imm : Imm8)
  | finalize
  | reset
  | word (imm16 : Nat)
  | wait
  | read (rd : Nat) (idx : Nat)
  | rdstat (rd : Nat)
  | absorbs (bs : List Imm8)
  | digest (bs : List Imm8)
  | readDigest (first : Nat)
  deriving DecidableEq, Repr

/-- R65: immediates fit their fields and a read index is 0..15. -/
def AsmStmt.wellFormed : AsmStmt → Bool
  | .absorb imm => imm.wellFormed
  | .word imm16 => imm16 < 65536
  | .read _ idx => idx < 16
  | .absorbs bs => bs.all Imm8.wellFormed
  | .digest bs => bs.all Imm8.wellFormed
  | .finalize | .reset | .wait | .rdstat _ | .readDigest _ => true

/-- R66 `ABSORBS b0, …, bn-1`: one ABSORB per byte; an empty sequence expands to nothing. -/
def absorbActions (bs : List Byte) : List HostAction := bs.map fun b => .send (encode (.absorb b))

/-- R65, R66: what a statement expands to. `ABSORB`, `FINALIZE`, `RESET` and `.word` send one word; `WAIT`, `READ` and `RDSTAT`
are host operations with no word; `DIGEST` is `ABSORBS; FINALIZE; WAIT`; `READDIGEST` reads all 16 bytes. -/
def AsmStmt.expand : AsmStmt → List HostAction
  | .absorb imm => [.send (encode (.absorb imm.value))]
  | .finalize => [.send (encode .finalize)]
  | .reset => [.send (encode .reset)]
  | .word imm16 => [.send (BitVec.ofNat 16 imm16)]
  | .wait => [.wait]
  | .read rd idx => [.read rd (BitVec.ofNat 4 idx)]
  | .rdstat rd => [.rdstat rd]
  | .absorbs bs => absorbActions (bs.map Imm8.value)
  | .digest bs => absorbActions (bs.map Imm8.value) ++ [.send (encode .finalize), .wait]
  | .readDigest first => (List.range 16).map fun k => .read (first + k) (BitVec.ofNat 4 k)

/-- The host actions of a whole program. -/
def assemble (p : List AsmStmt) : List HostAction := p.flatMap AsmStmt.expand

end Sys2Proof.Machine
end

