-- ==== Sys2Proof/Machine/System.lean ====
section
/-! DEFINITION. Several engine instances (60_exceptions R112): each has its own complete state and ports, and they share only
the S-box ROM, which is a constant of the model. N_INSTANCES (00_scope R7) is the length of the list (log 16). -/

namespace Sys2Proof.Machine

/-- One clock edge of instance `k`; an instance that does not exist does nothing.

DESIGN CHOICE (log 16), unsafe: R112 leaves the unspecified values of each instance free. Here all instances draw from the one
set of constants of Config.lean, each by its own count `draws`, so two instances with equal counts draw equal latencies and
equal unspecified reads, and all instances made by `State.powerUp` hold equal fields. A claim that compares the free values of
two instances is about this choice and not about the hardware. -/
def stepInstance (k : Nat) (engines : List State) : Host.Outcome (List State) Fault Refusal :=
  match engines[k]? with
  | some s => andThen (step s) fun t => .next (engines.set k t)
  | none => .next engines

end Sys2Proof.Machine
end

