-- ==== Sys2Proof/Safety.lean ====
section
/-! DEFINITION. The terms claims are stated in: the engine's invariant, what an observer cannot see, the moves of the spec's
step relation, and the digest of a message as the spec's rules define it. -/

namespace Sys2Proof.Machine

/-- The working state is all zero (10_state R35, R36). -/
structure Cleared (s : State) : Prop where
  st : s.st = zeroBytes 48
  blk : s.blk = zeroBytes 16
  fill : s.fill = 0#4
  ck : s.ck = zeroBytes 16

/-- The invariant of a run that began with a hard reset: no wait is counted while nothing is pending; `DVALID = 0` means `DOUT`
still holds its reset value (10_state R23); an engine that has absorbed nothing since the last clear has all its working
state zero (10_state R21, R36, R97). -/
structure Inv (s : State) : Prop where
  noWait : s.pend = none → s.latLeft = 0
  noDigest : s.dvalid = false → s.dout = zeroBytes 16
  idleCleared : s.absorbing = false → Cleared s

/-- Two states an observer of the ports can never tell apart: equal but for the stale bytes `BLK[FILL..15]` (10_state R32) and
regions B and C of `ST` (10_state R17, 40_datapath R77). -/
structure SameVisible (s t : State) : Prop where
  regionA : regionA s.st = regionA t.st
  staged : ∀ i (_ : i < 16), i < s.fill.toNat → s.blk[i] = t.blk[i]
  fill : s.fill = t.fill
  ck : s.ck = t.ck
  absorbing : s.absorbing = t.absorbing
  dout : s.dout = t.dout
  dvalid : s.dvalid = t.dvalid
  err : s.err = t.err
  pend : s.pend = t.pend
  latLeft : s.latLeft = t.latLeft
  draws : s.draws = t.draws
  inputs : s.inputs = t.inputs

/-- The moves of the spec's step relation (30_encoding R64), and the edge on which none of them happens. -/
inductive Move where
  | accept (w : Word)
  | complete
  | hardReset
  | stay
  deriving DecidableEq, Repr

/-- R64: the move is enabled in `s`. -/
def Move.enabled : Move → State → Prop
  | .accept _, s => s.pend = none
  | .complete, s => s.pend.isSome
  | .hardReset, _ => True
  | .stay, _ => True

/-- R64: the fields of R15 after the move; the model's own fields of the result are not looked at. -/
def Move.effect : Move → State → State → Prop
  | .accept w, s, t => { t with latLeft := s.latLeft, draws := s.draws, inputs := s.inputs } = { s with pend := some w }
  | .complete, s, t =>
    ∃ w u, s.pend = some w ∧ execWord w s = .next u ∧
      { t with latLeft := s.latLeft, draws := s.draws, inputs := s.inputs } = { u with pend := none }
  | .hardReset, s, t =>
    { t with draws := 0, inputs := [] } = State.reset ∧ t.draws = s.draws
  | .stay, s, t => { t with latLeft := s.latLeft, draws := s.draws, inputs := s.inputs } = s

/-- The pending word of `s` decodes to `c` and completes at the coming edge (30_encoding R64, 60_exceptions R104). -/
def CompletesAtEdge (s : State) (c : Command) : Prop :=
  s.pins.rst = false ∧ s.latLeft = 0 ∧ ∃ w, s.pend = some w ∧ decode w = c

/-- The two states hold the same working state (10_state R15, its first four fields). -/
structure SameWorking (s t : State) : Prop where
  st : s.st = t.st
  blk : s.blk = t.blk
  fill : s.fill = t.fill
  ck : s.ck = t.ck

/-- 42_finalize R88: the message with its padding; its length is a multiple of 16. -/
def padMessage (m : List Byte) : List Byte :=
  m ++ List.replicate (16 - m.length % 16) (BitVec.ofNat 8 (16 - m.length % 16))

/-- 20_memory R40: byte `i` of block `n` of a byte sequence is its byte `16·n + i`. -/
def blockOf (m : List Byte) (n : Nat) : Bytes 16 :=
  bytesOfList ((List.range 16).map fun i => m.getD (16 * n + i) 0x00#8) (by simp)

/-- 40_datapath R79: the checksum and the working state after blocks `0 .. n−1` of `m`, from zero. -/
def afterBlocks (m : List Byte) : Nat → Bytes 16 × Bytes 48
  | 0 => (zeroBytes 16, zeroBytes 48)
  | n + 1 =>
    let p := afterBlocks m n
    (accumulate p.1 (blockOf m n), compress p.2 (blockOf m n))

/-- The digest of a message (42_finalize R87): every block of the padded message is accumulated and compressed, then the
checksum is compressed, and region A is the digest. -/
def messageDigest (m : List Byte) : Bytes 16 :=
  let p := afterBlocks (padMessage m) ((padMessage m).length / 16)
  regionA (compress p.2 p.1)

/-- The commands that absorb a message. -/
def absorbWords (m : List Byte) : List Word := m.map fun b => encode (.absorb b)

/-- Two engines hold the same state of the spec: every field of 10_state R15. The model's own fields may differ. -/
structure SameSpec (s t : State) : Prop extends SameWorking s t where
  absorbing : s.absorbing = t.absorbing
  dout : s.dout = t.dout
  dvalid : s.dvalid = t.dvalid
  err : s.err = t.err
  pend : s.pend = t.pend

/-- The command word a host action puts on the command port, if it is a send. -/
def HostAction.word? : HostAction → Option Word
  | .send w => some w
  | .wait | .read _ _ | .rdstat _ | .assertRst _ | .pause _ => none

/-- The host action is anything but hard reset. -/
def HostAction.keepsRst : HostAction → Bool
  | .assertRst _ => false
  | .send _ | .wait | .read _ _ | .rdstat _ | .pause _ => true

/-- The host actions send the message `m`, one ABSORB for each byte in order and no other command, with any waits, reads and
pauses before, between and after (41_absorb R85). -/
def SendsMessage (as : List HostAction) (m : List Byte) : Prop :=
  as.filterMap HostAction.word? = absorbWords m ∧ ∀ a ∈ as, a.keepsRst = true

/-- The state after `k` edges (`Host.Core.run`, on `step`). -/
def stepN : Nat → State → Host.Outcome State Fault Refusal
  | 0, s => .next s
  | k + 1, s => andThen (step s) (stepN k)

end Sys2Proof.Machine
end

