-- ==== Sys2Proof/Certificates/Slice0/Obligations.lean ====
section
/-! DEFINITION. The statements about the model, one `def Obligations.<Name> : Prop` each. OBLIGATIONS.json lists them. -/

open Sys2Proof Sys2Proof.Machine

/-- 95_test_vectors L2.7, 30_encoding R56 and R59 to R61. -/
def Obligations.SpecWordsDecode : Prop :=
  decode 0x0100 = .instr (.absorb 0x00) ∧ decode 0x0161 = .instr (.absorb 0x61) ∧
  decode 0x01ff = .instr (.absorb 0xff) ∧ decode 0x0200 = .instr .finalize ∧ decode 0x0300 = .instr .reset ∧
  decode 0x0000 = .illegal .reservedOpcode 0x0000 ∧ decode 0x00ff = .illegal .reservedOpcode 0x00ff ∧
  decode 0x0201 = .illegal .reservedData 0x0201 ∧ decode 0x02ff = .illegal .reservedData 0x02ff ∧
  decode 0x0380 = .illegal .reservedData 0x0380 ∧ decode 0x03ff = .illegal .reservedData 0x03ff ∧
  decode 0x0400 = .illegal .reservedOpcode 0x0400 ∧ decode 0x8000 = .illegal .reservedOpcode 0x8000 ∧
  decode 0xffff = .illegal .reservedOpcode 0xffff

/-- 30_encoding R56, R58, R59, R63: one word per command, no bit of it dropped. -/
def Obligations.DecodeEncodeRoundTrip : Prop :=
  (∀ i : Instr, decode (encode i) = .instr i) ∧
  (∀ (w : Word) (i : Instr), decode w = .instr i → w = encode i)

/-- 30_encoding R59, the opcode map as match and mask, and its legal words. -/
def Obligations.OpcodeMapSelectsTheDecodedRow : Prop :=
  ∀ w : Word,
    (OpcodeRow.selects ⟨"ABSORB", 0x0100, 0xFF00⟩ w = true ↔ decode w = .instr (.absorb (dataField w))) ∧
    (OpcodeRow.selects ⟨"ABSORB", 0x0100, 0xFF00⟩ w = true ↔ 0x0100 ≤ w.toNat ∧ w.toNat ≤ 0x01FF) ∧
    (OpcodeRow.selects ⟨"FINALIZE", 0x0200, 0xFFFF⟩ w = true ↔ decode w = .instr .finalize) ∧
    (OpcodeRow.selects ⟨"FINALIZE", 0x0200, 0xFFFF⟩ w = true ↔ w = 0x0200) ∧
    (OpcodeRow.selects ⟨"RESET", 0x0300, 0xFFFF⟩ w = true ↔ decode w = .instr .reset) ∧
    (OpcodeRow.selects ⟨"RESET", 0x0300, 0xFFFF⟩ w = true ↔ w = 0x0300) ∧
    opcodeMap = [⟨"ABSORB", 0x0100, 0xFF00⟩, ⟨"FINALIZE", 0x0200, 0xFFFF⟩, ⟨"RESET", 0x0300, 0xFFFF⟩] ∧
    (opcodeMap.filter fun r => r.selects w).length ≤ 1

/-- 30_encoding R61. -/
def Obligations.IllegalWordsAndTheirEffect : Prop :=
  (∀ w : Word, (decode w).instr? = none ↔ ∀ r ∈ opcodeMap, r.selects w = false) ∧
  (∀ w : Word, (decode w).instr? = none ↔
    (opField w).toNat = 0 ∨ 4 ≤ (opField w).toNat ∨
      (((opField w).toNat = 2 ∨ (opField w).toNat = 3) ∧ dataField w ≠ 0x00#8)) ∧
  (∀ (w : Word) (s : State), (decode w).instr? = none →
    complete w s = .next { s with err := true, pend := none }) ∧
  (Finset.univ.filter fun w : Word => (decode w).instr? ≠ none).card = 258 ∧
  (Finset.univ.filter fun w : Word => (decode w).instr? = none).card = 65278

/-- 10_state R34. The model's own fields are not part of the rule. -/
def Obligations.ResetStateFields : Prop :=
  let atReset := fun t : State =>
    (∀ i (_ : i < 48), t.st[i] = 0x00#8) ∧ (∀ i (_ : i < 16), t.blk[i] = 0x00#8) ∧ t.fill = 0#4 ∧
    (∀ i (_ : i < 16), t.ck[i] = 0x00#8) ∧ t.absorbing = false ∧ (∀ i (_ : i < 16), t.dout[i] = 0x00#8) ∧
    t.dvalid = false ∧ t.err = false ∧ t.pend = none
  atReset State.reset ∧
  ∀ (p : Pins) (s : State), p.rst = true → ∃ t, clockEdge p s = .next t ∧ atReset t

/-- 41_absorb R82, the branch without a drain. -/
def Obligations.AbsorbStagesAByte : Prop :=
  ∀ (b : Byte) (s : State), s.fill ≠ 15#4 →
    exec (.absorb b) s = .next
      { s with blk := s.blk.set s.fill.toNat b s.fill.isLt, absorbing := true, fill := s.fill + 1#4 }

/-- 41_absorb R83; 10_state R32 (log 8: stale bytes kept). -/
def Obligations.AbsorbDrainsAFullBlock : Prop :=
  ∀ (b : Byte) (s : State), s.fill = 15#4 →
    exec (.absorb b) s = .next
      { s with
        blk := s.blk.set 15 b, ck := accumulate s.ck (s.blk.set 15 b), st := compress s.st (s.blk.set 15 b),
        fill := 0#4, absorbing := true }

/-- 42_finalize R87, steps 1 to 6 in order; R94, no offset. -/
def Obligations.FinalizeResult : Prop :=
  ∀ s : State,
    let block := padded s.fill s.blk
    let sum := accumulate s.ck block
    exec .finalize s = .next
      { s with
        dout := regionA (compress (compress s.st block) sum), dvalid := true,
        st := zeroBytes 48, blk := zeroBytes 16, fill := 0#4, ck := zeroBytes 16, absorbing := false }

/-- 43_reset R96. -/
def Obligations.ResetResult : Prop :=
  ∀ s : State,
    exec .reset s = .next
      { s with st := zeroBytes 48, blk := zeroBytes 16, fill := 0#4, ck := zeroBytes 16, absorbing := false, err := false }

/-- 41_absorb R82, flags written; R83. At FILL = 15 the clause on BLK is the model's choice (log 8, DESIGN CHOICE):
10_state R32 lets a model keep or zero the stale bytes. -/
def Obligations.AbsorbFrame : Prop :=
  ∀ (b : Byte) (s t : State), exec (.absorb b) s = .next t →
    t.dout = s.dout ∧ t.dvalid = s.dvalid ∧ t.err = s.err ∧ t.pend = s.pend ∧
    t.latLeft = s.latLeft ∧ t.draws = s.draws ∧ t.inputs = s.inputs ∧
    (∀ i (_ : i < 16), i ≠ s.fill.toNat → t.blk[i] = s.blk[i]) ∧
    (s.fill ≠ 15#4 → t.st = s.st ∧ t.ck = s.ck)

/-- 42_finalize R87, 43_reset R96, flags written; 10_state R35. -/
def Obligations.FinalizeAndResetFrame : Prop :=
  (∀ s t : State, exec .finalize s = .next t →
    t.err = s.err ∧ t.pend = s.pend ∧ t.latLeft = s.latLeft ∧ t.draws = s.draws ∧ t.inputs = s.inputs) ∧
  (∀ s t : State, exec .reset s = .next t →
    t.dout = s.dout ∧ t.dvalid = s.dvalid ∧ t.pend = s.pend ∧ t.latLeft = s.latLeft ∧ t.draws = s.draws ∧
    t.inputs = s.inputs)

/-- 60_exceptions R102, the engine's one exception. In the clause on the acceptance, latLeft and draws are the model's own
fields and their values the model's choice (log 1, log 2, DESIGN CHOICE); that PEND holds the word is 30_encoding R57. -/
def Obligations.IllegalCommandException : Prop :=
  (∀ (w : Word) (s : State), (decode w).instr? = none →
    complete w s = .next { s with err := true, pend := none } ∧
    (s.pend = none → clockEdge (Pins.offer w) s = .next
      { s with pend := some w, latLeft := Config.latency .illegal s.draws - 1, draws := s.draws + 1 }) ∧
    ∀ (b : Byte) (u : State), execWord (encode (.absorb b)) s = .next u →
      andThen (execWord w s) (execWord (encode (.absorb b))) = .next { u with err := true }) ∧
  ((decode 0x0000).instr? = none ∧ (decode 0xffff).instr? = none ∧ (decode 0x0201).instr? = none ∧
    (decode 0x03ff).instr? = none) ∧
  ∃ t u, exec (.absorb 0x61) State.reset = .next t ∧ complete 0x0400 t = .next u ∧
    (readStatus t).1 = 0x18 ∧ (readStatus u).1 = 0x1C ∧ u = { t with err := true }

/-- 30_encoding R64 Complete; the step's own addition is takePins before and clearPend after. -/
def Obligations.StepRunsDecodedCommand : Prop :=
  (∀ (s : State) (w : Word) (i : Instr),
    s.pend = some w → s.latLeft = 0 → s.pins.rst = false → decode w = .instr i →
    step s = andThen (exec i s.takePins) fun t => .next t.clearPend) ∧
  (∀ (s : State) (w : Nat) (i : Instr), decodeTableWord 16 w = some i →
    step (s.withFetchWord 16 w) =
      andThen (exec i { s with pend := some (BitVec.ofNat 16 w), latLeft := 0 }) fun t => .next { t with pend := none })

/-- 30_encoding R63, R64; 60_exceptions R102. -/
def Obligations.StepRaisesIllegalCommand : Prop :=
  ∀ (s : State) (w : Word),
    s.pend = some w → s.latLeft = 0 → s.pins.rst = false → (decode w).instr? = none →
    step s = .next { s with err := true, pend := none, inputs := s.inputs.tail }

/-- 70_reset_and_hazards R116. What the edge leaves of the model's own fields latLeft, draws and inputs is the model's choice
(log 4, DESIGN CHOICE). -/
def Obligations.HardResetEdge : Prop :=
  (∀ s : State, s.cmdReady true = false) ∧
  ∀ (p : Pins) (s : State), p.rst = true →
    ∃ t, clockEdge p s = .next t ∧ t = { State.reset with draws := s.draws, inputs := s.inputs } ∧
      t.pend = none ∧ (readStatus t).1 = 0x00#8 ∧ (∀ sel, (readDout sel t).1 = 0x00#8) ∧ t.cmdReady false = true

/-- 70_reset_and_hazards R117, R119 (power-up fields are free values, log 10). -/
def Obligations.PowerUpThenReset : Prop :=
  ∀ (p : Pins) (ps : List Pins), p.rst = true →
    ∃ d, step (State.powerUp (p :: ps)) = .next { State.reset with draws := d, inputs := ps }

/-- 30_encoding R57. latLeft and draws are the model's own fields and their values the model's choice (log 1, log 2). -/
def Obligations.AcceptanceEdge : Prop :=
  ∀ (p : Pins) (s : State), s.pend = none → p.rst = false → p.cmdValid = true →
    clockEdge p s = .next
      { s with
        pend := some p.cmdWord, latLeft := Config.latency (latencyKind p.cmdWord s) s.draws - 1,
        draws := s.draws + 1 }

/-- 30_encoding R57; 43_reset R99; 60_exceptions R104. -/
def Obligations.BackPressure : Prop :=
  ∀ (p q : Pins) (s : State) (w : Word), s.pend = some w → p.rst = false → q.rst = false →
    clockEdge p s = clockEdge q s ∧
    (∀ n, s.latLeft = n + 1 → clockEdge p s = .next { s with latLeft := n })

/-- 60_exceptions R114, 10_state R27. -/
def Obligations.IdleEdgeKeepsTheState : Prop :=
  ∀ s : State, s.pend = none → s.pins.rst = false → s.pins.cmdValid = false →
    step s = .next { s with inputs := s.inputs.tail }

/-- 10_state R26; 20_memory R43. Bits 7:1 while busy are a free value (log 5): the statement holds for every value of it. -/
def Obligations.StatusRegisterLayout : Prop :=
  (∀ s : State, (readStatus s).1.getLsbD 0 = s.pend.isSome) ∧
  (∀ s : State, s.pend = none →
    (readStatus s).1.getLsbD 1 = s.dvalid ∧ (readStatus s).1.getLsbD 2 = s.err ∧
    (readStatus s).1.getLsbD 3 = s.absorbing ∧ (readStatus s).1.extractLsb' 4 4 = s.fill) ∧
  (∀ s : State, s.pend.isSome →
    (readStatus s).1.extractLsb' 1 7 = Config.busyStatus s.draws ∧ (readStatus s).2.draws = s.draws + 1) ∧
  (readStatus State.reset).1 = 0x00

/-- 20_memory R42, R43. The byte while a FINALIZE is pending is a free value (log 6). -/
def Obligations.DigestReadPort : Prop :=
  ∀ (sel : BitVec 4) (s : State),
    (∀ w, s.pend = some w → decode w = .instr .finalize → (readDout sel s).1 = Config.busyDout s.draws) ∧
    ((∀ w, s.pend = some w → decode w ≠ .instr .finalize) →
      (readDout sel s).1 = s.dout[sel.toNat]'sel.isLt ∧ (readDout sel (readDout sel s).2).1 = (readDout sel s).1)

/-- 20_memory R41, R46 (log 13). -/
def Obligations.ReadsHaveNoSideEffect : Prop :=
  ∀ (sel : BitVec 4) (s : State),
    (∃ d, (readStatus s).2 = { s with draws := d }) ∧ (∃ d, (readDout sel s).2 = { s with draws := d })

/-- 40_datapath R71. The 256 values are the spec's own choice from general knowledge (R70, log 7). -/
def Obligations.SboxIsAPermutation : Prop :=
  Function.Bijective sbox ∧ (∀ x, sbox x ≠ x) ∧ sbox 0xDD = 0x00#8 ∧
  sbox 0x00 = 0x29 ∧ sbox 0x01 = 0x2E ∧ sbox 0xFF = 0x14 ∧ sbox 0x61 = 0x19

/-- 40_datapath R73: state written, order and seed. -/
def Obligations.AccumulateChain : Prop :=
  ∀ ck m : Bytes 16, ∃ last : Nat → Byte, last 0 = ck[15] ∧
    ∀ i (_ : i < 16),
      (accumulate ck m)[i] = ck[i] ^^^ sbox (m[i] ^^^ last i) ∧ last (i + 1) = (accumulate ck m)[i]

/-- 40_datapath R75. -/
def Obligations.ExpandRegions : Prop :=
  (∀ (st : Bytes 48) (m : Bytes 16) (i : Nat) (_ : i < 16),
    (expand st m)[i] = st[i] ∧ (expand st m)[16 + i] = m[i] ∧ (expand st m)[32 + i] = m[i] ^^^ st[i]) ∧
  (∀ (st st' : Bytes 48) (m : Bytes 16), (∀ i (_ : i < 16), st[i] = st'[i]) → expand st m = expand st' m)

/-- 40_datapath R76, reading (a) of 90_conflicts C2. -/
def Obligations.MixChain : Prop :=
  ∀ st : Bytes 48, ∃ (v : Nat → Nat → Byte) (t : Nat → Nat → Byte),
    (∀ k (_ : k < 48), v 0 k = st[k]) ∧ t 0 0 = 0 ∧
    (∀ j k, j < 18 → k < 48 → v (j + 1) k = v j k ^^^ sbox (t j k) ∧ t j (k + 1) = v (j + 1) k) ∧
    (∀ j, j < 18 → t (j + 1) 0 = t j 48 + BitVec.ofNat 8 j) ∧
    (∀ k (_ : k < 48), (mix st)[k] = v 18 k)

/-- 40_datapath R77; 10_state R17. -/
def Obligations.CompressReadsRegionAOnly : Prop :=
  (∀ (st : Bytes 48) (m : Bytes 16), compress st m = mix (expand st m)) ∧
  (∀ (st st' : Bytes 48) (m : Bytes 16), (∀ i (_ : i < 16), st[i] = st'[i]) → compress st m = compress st' m)

/-- 42_finalize R88. -/
def Obligations.PaddingRule : Prop :=
  ∀ (fill : BitVec 4) (blk : Bytes 16),
    (padValue fill).toNat = 16 - fill.toNat ∧ 1 ≤ (padValue fill).toNat ∧ (padValue fill).toNat ≤ 16 ∧
    (∀ i (_ : i < 16), fill.toNat ≤ i → (padded fill blk)[i] = padValue fill) ∧
    (∀ i (_ : i < 16), i < fill.toNat → (padded fill blk)[i] = blk[i]) ∧
    ((List.range 16).filter fun i => fill.toNat ≤ i).length = 16 - fill.toNat ∧
    (padded fill blk)[15] = padValue fill ∧
    (fill = 0#4 → (padded fill blk).toList = List.replicate 16 (padValue fill))

/-- 42_finalize R89, R90. -/
def Obligations.PadCornerCases : Prop :=
  (∀ blk : Bytes 16, (padded 0#4 blk).toList = List.replicate 16 0x10) ∧
  (∀ blk : Bytes 16, padded 15#4 blk = blk.set 15 0x01)

/-- 95_test_vectors V1 to V3; 42_finalize R87 and R89, worked examples. -/
def Obligations.KnownDigests : Prop :=
  (messageDigest []).toList =
    [0x83, 0x50, 0xe5, 0xa3, 0xe2, 0x4c, 0x15, 0x3d, 0xf2, 0x27, 0x5c, 0x9f, 0x80, 0x69, 0x27, 0x73] ∧
  (messageDigest [0x61]).toList =
    [0x32, 0xec, 0x01, 0xec, 0x4a, 0x6d, 0xac, 0x72, 0xc0, 0xab, 0x96, 0xfb, 0x34, 0xc0, 0xb5, 0xd1] ∧
  (messageDigest [0x61, 0x62, 0x63]).toList =
    [0xda, 0x85, 0x3b, 0x0d, 0x3f, 0x88, 0xd9, 0x9b, 0x30, 0x28, 0x3a, 0x69, 0xe6, 0xde, 0xd6, 0xbb]

/-- 42_finalize R91. -/
def Obligations.RepeatedFinalizeHashesTheEmptyMessage : Prop :=
  ∀ s : State, ∃ t, andThen (exec .finalize s) (exec .finalize) = .next t ∧
    t.dout = messageDigest [] ∧ t.dvalid = true ∧ t.err = s.err ∧ Cleared t ∧ t.absorbing = false

/-- 43_reset R97. -/
def Obligations.RepeatedResetAndIdleReset : Prop :=
  (∀ s : State, Cleared s → s.absorbing = false → exec .reset s = .next { s with err := false }) ∧
  (∀ s : State, andThen (exec .reset s) (exec .reset) = exec .reset s)

/-- 10_state R21, R23, R36. The first clause is about the model's own field latLeft (log 4). -/
def Obligations.EveryStepKeepsTheInvariant : Prop :=
  ∀ s t : State, Inv s → step s = .next t → Inv t

/-- 10_state R34; 70_reset_and_hazards R118. The first clause rests on the model's own field latLeft, 0 at reset (log 4). -/
def Obligations.InvariantHoldsAtReset : Prop :=
  Inv State.reset

/-- 30_encoding R64; 60_exceptions R104. One step is one clock edge (log 1). -/
def Obligations.StepsAreTheMovesOfTheSpec : Prop :=
  (∀ s t : State, step s = .next t →
    ∃ m : Move, m.enabled s ∧ m.effect s t ∧ (m = .hardReset ↔ s.pins.rst = true) ∧
      (∀ w, m = .accept w → s.pins.cmdValid = true ∧ s.pins.cmdWord = w)) ∧
  (∀ s : State, ∃ ps t, step (s.withInputs ps) = .next t ∧ Move.effect .hardReset s t) ∧
  (∀ (s : State) (w : Word), s.pend = none →
    ∃ ps t, step (s.withInputs ps) = .next t ∧ Move.effect (.accept w) s t) ∧
  (∀ s : State, s.pend.isSome → s.latLeft = 0 →
    ∃ ps t, step (s.withInputs ps) = .next t ∧ Move.effect .complete s t)

/-- 10_state R25, 30_encoding R63 and R64: every command completes after a finite time (latencies are free values, log 2). -/
def Obligations.EveryPendingCommandCompletes : Prop :=
  ∀ (s : State) (w : Word), s.pend = some w → (∀ p ∈ s.inputs.take (s.latLeft + 1), p.rst = false) →
    (∃ u, execWord w s = .next u ∧
      stepN (s.latLeft + 1) s =
        .next { u with pend := none, latLeft := 0, inputs := s.inputs.drop (s.latLeft + 1) }) ∧
    (∀ k, k ≤ s.latLeft →
      stepN k s = .next { s with latLeft := s.latLeft - k, inputs := s.inputs.drop k })

/-- 00_scope R7, 10_state R25. The latency is a free value (log 2): the statement holds for every latency. -/
def Obligations.AcceptedCommandCompletesAtItsLatency : Prop :=
  ∀ (s : State) (p : Pins) (ps : List Pins), s.pend = none → s.inputs = p :: ps → p.rst = false → p.cmdValid = true →
    (∀ q ∈ ps, q.rst = false) →
    let lat := Config.latency (latencyKind p.cmdWord s) s.draws
    1 ≤ lat ∧
    ∃ u, execWord p.cmdWord s = .next u ∧
      stepN (1 + lat) s = .next { u with pend := none, latLeft := 0, draws := s.draws + 1, inputs := ps.drop lat }

/-- 30_encoding R63: Exec is total, never fails or blocks; 40_datapath R81; 93_implementation_defined, text after U16. -/
def Obligations.EveryStepGoesOn : Prop :=
  (∀ s : State, ∃ t, step s = .next t) ∧ (∀ (i : Instr) (s : State), ∃ t, exec i s = .next t) ∧
  (∀ (w : Word) (s : State), ∃ t, complete w s = .next t)

/-- 10_state R17, R32; 40_datapath R77. -/
def Obligations.HiddenBytesNeverReachAnOutput : Prop :=
  ∀ s t : State, SameVisible s t →
    (readStatus s).1 = (readStatus t).1 ∧ (∀ sel, (readDout sel s).1 = (readDout sel t).1) ∧
    (∀ rst, s.cmdReady rst = t.cmdReady rst) ∧
    ∀ s', step s = .next s' → ∃ t', step t = .next t' ∧ SameVisible s' t'

/-- 10_state R21, R36; 60_exceptions R106: ERR does not block or alter any later command. -/
def Obligations.FlagsAndDoutAreNeverRead : Prop :=
  ∀ (s t : State) (ws : List Word), SameWorking s t →
    ∃ u v, execWords ws s = .next u ∧ execWords ws t = .next v ∧ SameWorking u v ∧
      ∃ u' v', exec .finalize u = .next u' ∧ exec .finalize v = .next v' ∧ u'.dout = v'.dout

/-- 42_finalize R87, R88; 41_absorb R84; 20_memory R40. messageDigest in Safety.lean is the block-by-block definition. -/
def Obligations.DigestOfEveryMessage : Prop :=
  ∀ (s : State) (m : List Byte), Cleared s →
    execWords (absorbWords m ++ [encode .finalize]) s =
      .next { s with dout := messageDigest m, dvalid := true, absorbing := false }

/-- 41_absorb R84; 20_memory R40. -/
def Obligations.BlockFraming : Prop :=
  ∀ (s : State) (m : List Byte), Cleared s →
    ∃ t, execWords (absorbWords m) s = .next t ∧
      t.fill.toNat = m.length % 16 ∧ (t.ck, t.st) = afterBlocks m (m.length / 16) ∧
      (∀ i (_ : i < 16), i < m.length % 16 → m[16 * (m.length / 16) + i]? = some t.blk[i]) ∧
      t.absorbing = (s.absorbing || !m.isEmpty) ∧ t.dout = s.dout ∧ t.dvalid = s.dvalid ∧ t.err = s.err

/-- 41_absorb R85, its last sentence (host-side timing) from 30_encoding R64; 30_encoding R66; 42_finalize R87 (log 14). -/
def Obligations.ChunkingInvariance : Prop :=
  (∀ (h : HostState) (m m' : List Byte) (as as' : List HostAction), SendsMessage as m → SendsMessage as' m' →
    ∃ u v, runHost (as ++ as' ++ [.wait]) h = .next u ∧ runHost (absorbActions (m ++ m') ++ [.wait]) h = .next v ∧
      SameSpec u.engine v.engine) ∧
  (∀ (h : HostState) (m m' : List Byte) (as as' : List HostAction), SendsMessage as m → SendsMessage as' m' →
    h.engine.pend = none → Cleared h.engine →
    ∃ u, runHost (as ++ as' ++ assemble [.finalize, .wait]) h = .next u ∧ u.engine.dout = messageDigest (m ++ m') ∧
      u.engine.dvalid = true ∧ u.engine.err = h.engine.err ∧ u.engine.pend = none ∧ Cleared u.engine) ∧
  (∀ (h : HostState) (as : List HostAction), SendsMessage as [] → h.engine.pend = none →
    ∃ u, runHost as h = .next u ∧ SameSpec u.engine h.engine) ∧
  (∀ (bs bs' : List Imm8) (rd rd' idx : Nat),
    SendsMessage (assemble [.absorbs bs]) (bs.map Imm8.value) ∧
    SendsMessage (assemble [.absorbs bs, .rdstat rd, .wait, .read rd' idx, .absorbs bs'])
      (bs.map Imm8.value ++ bs'.map Imm8.value))

/-- 10_state R36; 43_reset R98; ARITH's reuse isolation. -/
def Obligations.ReuseIsolation : Prop :=
  ∀ (s s₁ : State) (ws : List Word), exec .finalize s = .next s₁ ∨ exec .reset s = .next s₁ →
    ∃ u v, execWords ws s₁ = .next u ∧ execWords ws State.reset = .next v ∧
      SameWorking u v ∧ u.absorbing = v.absorbing ∧ (v.dvalid = true → u.dvalid = true ∧ u.dout = v.dout)

/-- 10_state R24; 60_exceptions R106. -/
def Obligations.ErrIsSticky : Prop :=
  ∀ s t : State, step s = .next t →
    (s.err = false → t.err = true → ∃ why w, CompletesAtEdge s (.illegal why w)) ∧
    (s.err = true → t.err = false → s.pins.rst = true ∨ CompletesAtEdge s (.instr .reset)) ∧
    (∀ why w, CompletesAtEdge s (.illegal why w) → t.err = true) ∧
    (CompletesAtEdge s (.instr .reset) → t.err = false)

/-- 10_state R22, R23; 42_finalize R95; 70_reset_and_hazards R126. -/
def Obligations.DoutAndDvalidWriters : Prop :=
  ∀ s t : State, step s = .next t →
    (t.dout ≠ s.dout ∨ t.dvalid ≠ s.dvalid → s.pins.rst = true ∨ CompletesAtEdge s (.instr .finalize)) ∧
    (s.pins.rst = true → t.dout = zeroBytes 16 ∧ t.dvalid = false) ∧
    (CompletesAtEdge s (.instr .finalize) → t.dvalid = true)

/-- 10_state R16, R18, R19, R20. -/
def Obligations.WorkingStateWriters : Prop :=
  ∀ s t : State, step s = .next t → s.pins.rst = false →
    (t.st ≠ s.st ∨ t.ck ≠ s.ck →
      (s.fill = 15#4 ∧ ∃ b, CompletesAtEdge s (.instr (.absorb b))) ∨
      CompletesAtEdge s (.instr .finalize) ∨ CompletesAtEdge s (.instr .reset)) ∧
    (t.blk ≠ s.blk ∨ t.fill ≠ s.fill →
      (∃ b, CompletesAtEdge s (.instr (.absorb b))) ∨
      CompletesAtEdge s (.instr .finalize) ∨ CompletesAtEdge s (.instr .reset))

/-- 10_state R30. -/
def Obligations.PhaseTransitions : Prop :=
  ∀ s t : State, step s = .next t →
    (s.pins.rst = true → t.phase = .idle) ∧
    (∀ b, CompletesAtEdge s (.instr (.absorb b)) → t.phase = .absorbing) ∧
    (CompletesAtEdge s (.instr .finalize) → t.phase = .idle) ∧
    (CompletesAtEdge s (.instr .reset) → t.phase = .idle) ∧
    (∀ why w, CompletesAtEdge s (.illegal why w) → t.phase = s.phase) ∧
    (s.pins.rst = false → s.pend = none → s.pins.cmdValid = true →
      t.phase = if decode s.pins.cmdWord = .instr .finalize then .finalizing else s.phase) ∧
    (s.pins.rst = false → s.pend = none → s.pins.cmdValid = false → t.phase = s.phase) ∧
    (s.pins.rst = false → s.pend ≠ none → s.latLeft ≠ 0 → t.phase = s.phase)

/-- 60_exceptions R112 (log 16). -/
def Obligations.InstancesAreIndependent : Prop :=
  ∀ (engines : List State) (k : Nat), ∃ engines', stepInstance k engines = .next engines' ∧
    engines'.length = engines.length ∧ (∀ j, j ≠ k → engines'[j]? = engines[j]?) ∧
    (∀ s, engines[k]? = some s → ∃ t, step s = .next t ∧ engines'[k]? = some t)

/-- 30_encoding R65; 20_memory R48. How many edges a poll takes is the model's choice (log 14). -/
def Obligations.WaitEndsWithTheCommandDone : Prop :=
  ∀ h : HostState, ∃ h', HostAction.run .wait h = .next h' ∧ h'.ended = true ∧ h'.reads = h.reads ∧
    (h.engine.pend = none → h'.engine = h.engine) ∧
    (∀ w, h.engine.pend = some w → ∃ u d, execWord w h.engine = .next u ∧
      h'.engine = { u with pend := none, latLeft := 0, draws := d })

/-- 30_encoding R57; 70_reset_and_hazards R120; 20_memory R47 (log 14). -/
def Obligations.SentWordIsAccepted : Prop :=
  ∀ (h : HostState) (w : Word), ∃ h', HostAction.run (.send w) h = .next h' ∧ h'.reads = h.reads ∧
    (h.engine.pend = none → ∃ n d, h'.engine = { h.engine with pend := some w, latLeft := n, draws := d }) ∧
    (∀ w₀, h.engine.pend = some w₀ → ∃ u n d, execWord w₀ h.engine = .next u ∧
      h'.engine = { u with pend := some w, latLeft := n, draws := d })

/-- 30_encoding R65, R66; 20_memory R42, R44; 42_finalize R87 (log 14). -/
def Obligations.DigestStatementReadsTheDigest : Prop :=
  ∀ (h : HostState) (bs : List Imm8) (first : Nat), h.engine.pend = none → Cleared h.engine →
    ∃ h', runHost (assemble [.digest bs, .readDigest first]) h = .next h' ∧ h'.ended = true ∧
      h'.reads = h.reads ++
        (List.range 16).map (fun k => (first + k, (messageDigest (bs.map Imm8.value)).toList.getD k 0)) ∧
      h'.engine.dvalid = true ∧ h'.engine.err = h.engine.err ∧ Cleared h'.engine
end

