-- ==== Sys2Proof/Laws/Datapath.lean ====
section
/-! SUPPORT. The datapath functions read byte by byte, and equal to the spec's indexed loops (40_datapath R70 to R76). -/

namespace Sys2Proof.Machine

/-! ### Arrays and lists -/

@[simp] theorem bytesOfList_toList {n : Nat} (l : List Byte) (h : l.length = n) : (bytesOfList l h).toList = l := rfl

@[simp] theorem bytesOfList_getElem {n : Nat} (l : List Byte) (h : l.length = n) (i : Nat) (hi : i < n) :
    (bytesOfList l h)[i] = l[i]'(h ▸ hi) := rfl

theorem bytesOfList_congr {n : Nat} {l l' : List Byte} (e : l = l') (h : l.length = n) (h' : l'.length = n) :
    bytesOfList l h = bytesOfList l' h' := by
  subst e; rfl

@[simp] theorem bytesOfList_of_toList {n : Nat} (v : Bytes n) (h : v.toList.length = n) : bytesOfList v.toList h = v := rfl

@[simp] theorem zeroBytes_getElem (n i : Nat) (hi : i < n) : (zeroBytes n)[i] = 0 := by
  simp [zeroBytes]

/-! ### The ROM -/

/-- Every row and column of the ROM exists, so `sbox` never reads a default. -/
theorem sboxRows_shape : sboxRows.length = 16 ∧ ∀ r ∈ sboxRows, r.length = 16 := by decide

/-- R70: `SBOX[16·r + c]` is the entry at row `r` and column `c`. -/
theorem sbox_eq_entry (x : Byte) :
    ∃ row, sboxRows[x.toNat / 16]? = some row ∧ row[x.toNat % 16]? = some (sbox x) := by
  have hr : x.toNat / 16 < sboxRows.length := by rw [sboxRows_shape.1]; have := x.isLt; omega
  have hc : x.toNat % 16 < sboxRows[x.toNat / 16].length := by
    rw [sboxRows_shape.2 _ (List.getElem_mem hr)]; omega
  exact ⟨_, List.getElem?_eq_getElem hr, by simp [sbox, List.getD, hr, hc]⟩

/-! ### Accumulate -/

@[simp] theorem accumulateFrom_nil (ms : List Byte) (last : Byte) : accumulateFrom [] ms last = [] := rfl

@[simp] theorem accumulateFrom_cons (c m : Byte) (cs ms : List Byte) (last : Byte) :
    accumulateFrom (c :: cs) (m :: ms) last =
      (c ^^^ sbox (m ^^^ last)) :: accumulateFrom cs ms (c ^^^ sbox (m ^^^ last)) := rfl

@[simp] theorem accumulate_toList (ck m : Bytes 16) :
    (accumulate ck m).toList = accumulateFrom ck.toList m.toList ck[15] := by unfold accumulate; rfl

/-- The chain of R73: byte `i` is `CK[i] XOR SBOX[M[i] XOR last]`, where `last` is the seed for `i = 0` and the new byte
`i − 1` after that. -/
theorem accumulateFrom_getElem (cs ms : List Byte) (last : Byte) (i : Nat) (hc : i < cs.length) (hm : i < ms.length)
    (ho : i < (accumulateFrom cs ms last).length) :
    (accumulateFrom cs ms last)[i] =
      cs[i] ^^^ sbox (ms[i] ^^^ (if i = 0 then last else (accumulateFrom cs ms last).getD (i - 1) 0)) := by
  induction cs generalizing ms last i with
  | nil => simp at hc
  | cons c cs ih =>
    cases ms with
    | nil => simp at hm
    | cons m ms =>
      cases i with
      | zero => simp
      | succ i =>
        simp only [accumulateFrom_cons, List.getElem_cons_succ]
        rw [ih ms _ i (by simpa using hc) (by simpa using hm) (by simpa [accumulateFrom_cons] using ho)]
        cases i <;> simp

/-! ### Expand -/

@[simp] theorem regionA_toList (st : Bytes 48) : (regionA st).toList = st.toList.take 16 := rfl

@[simp] theorem regionA_getElem (st : Bytes 48) (i : Nat) (hi : i < 16) : (regionA st)[i] = st[i] := by
  simp [regionA]

@[simp] theorem expand_toList (st : Bytes 48) (m : Bytes 16) :
    (expand st m).toList = (regionA st).toList ++ m.toList ++ List.zipWith (· ^^^ ·) m.toList (regionA st).toList := rfl

/-- Expanding reads region A only. -/
theorem expand_congr {st st' : Bytes 48} (h : regionA st = regionA st') (m : Bytes 16) : expand st m = expand st' m := by
  unfold expand; exact bytesOfList_congr (by rw [h]) _ _

/-! ### Mix -/

@[simp] theorem mixPass_nil (t : Byte) : mixPass [] t = ([], t) := rfl

theorem mixPass_cons (b : Byte) (bs : List Byte) (t : Byte) :
    mixPass (b :: bs) t =
      ((b ^^^ sbox t) :: (mixPass bs (b ^^^ sbox t)).1, (mixPass bs (b ^^^ sbox t)).2) := rfl

/-- The chain of R76 within one pass: the carried scalar before update `k` is the seed for `k = 0` and the new byte `k − 1`
after that. -/
theorem mixPass_getElem (l : List Byte) (t : Byte) (k : Nat) (hk : k < l.length) (ho : k < (mixPass l t).1.length) :
    (mixPass l t).1[k] = l[k] ^^^ sbox (if k = 0 then t else (mixPass l t).1.getD (k - 1) 0) := by
  induction l generalizing t k with
  | nil => simp at hk
  | cons b bs ih =>
    cases k with
    | zero => simp [mixPass_cons]
    | succ k =>
      simp only [mixPass_cons, List.getElem_cons_succ]
      rw [ih _ k (by simpa using hk) (by simpa [mixPass_cons] using ho)]
      cases k <;> simp

/-- The scalar a pass ends with: the seed if there is no byte, else the last new byte. -/
theorem mixPass_snd (l : List Byte) (t : Byte) : (mixPass l t).2 = (mixPass l t).1.getLastD t := by
  induction l generalizing t with
  | nil => rfl
  | cons b bs ih => simp [mixPass_cons, ih, List.getLast?_cons]

@[simp] theorem mixRounds_nil (p : List Byte × Byte) : mixRounds [] p = p := rfl

@[simp] theorem mixRounds_cons (j : Nat) (js : List Nat) (p : List Byte × Byte) :
    mixRounds (j :: js) p = mixRounds js (mixRound p j) := rfl

theorem mixRounds_append (js js' : List Nat) (p : List Byte × Byte) :
    mixRounds (js ++ js') p = mixRounds js' (mixRounds js p) := by simp [mixRounds]

@[simp] theorem mix_toList (st : Bytes 48) : (mix st).toList = (mixRounds (List.range 18) (st.toList, 0)).1 := by
  rw [mix, bytesOfList_toList]

/-! ### The spec's indexed loops -/

/-- R73 as written: `for i in 0..15`, updating `CK[i]` in place. -/
def accumulateLoop (ck m : Bytes 16) : Bytes 16 :=
  ((List.finRange 16).foldl
    (fun p (i : Fin 16) =>
      let c := p.1[i] ^^^ sbox (m[i] ^^^ p.2)
      (p.1.set i.val c, c))
    (ck, ck[15])).1

/-- R76, the inner loop as written: `for k in 0..47`, updating `ST[k]` in place. -/
def mixPassLoop (st : Bytes 48) (t : Byte) : Bytes 48 × Byte :=
  (List.finRange 48).foldl
    (fun p (k : Fin 48) =>
      let b := p.1[k] ^^^ sbox p.2
      (p.1.set k.val b, b))
    (st, t)

/-- A list whose bytes from `i` on are visited by a loop that overwrites each and carries a scalar: the step of the loop
equals one step of a recursion over the bytes that are left. -/
theorem setLoop_eq {n : Nat} (f : Nat → Byte → Byte → Byte) (g : Nat → List Byte → Byte → List Byte × Byte)
    (gnil : ∀ i t, g i [] t = ([], t))
    (gcons : ∀ i, i < n → ∀ b bs t, g i (b :: bs) t = (f i b t :: (g (i + 1) bs (f i b t)).1, (g (i + 1) bs (f i b t)).2))
    (ks : List (Fin n)) (i : Nat) (hks : ks.map Fin.val = List.range' i (n - i)) (hi : i ≤ n) (v : Bytes n) (t : Byte) :
    ((ks.foldl (fun p (k : Fin n) => (p.1.set k.val (f k p.1[k] p.2), f k p.1[k] p.2)) (v, t)).1.toList,
      (ks.foldl (fun p (k : Fin n) => (p.1.set k.val (f k p.1[k] p.2), f k p.1[k] p.2)) (v, t)).2) =
      (v.toList.take i ++ (g i (v.toList.drop i) t).1, (g i (v.toList.drop i) t).2) := by
  induction ks generalizing i v t with
  | nil =>
    have hn : n = i := by
      have := congrArg List.length hks
      simp at this; omega
    have hd : v.toList.drop i = [] := by simp [hn]
    have ht : v.toList.take i = v.toList := List.take_of_length_le (by simp [hn])
    simp [hd, ht, gnil]
  | cons k ks ih =>
    have hlt : i < n := by
      rcases Nat.lt_or_ge i n with h | h
      · exact h
      · have : n - i = 0 := by omega
        simp [this] at hks
    have hr : List.range' i (n - i) = i :: List.range' (i + 1) (n - (i + 1)) := by
      have : n - i = (n - (i + 1)) + 1 := by omega
      rw [this, List.range'_succ]
    rw [hr, List.map_cons, List.cons.injEq] at hks
    obtain ⟨hk, hks'⟩ := hks
    subst hk
    rw [List.foldl_cons, ih (k.val + 1) hks' hlt]
    have hget : v[k] = v.toList[k.val]'(by simp) := by simp
    have hdrop : v.toList.drop k.val = v[k] :: v.toList.drop (k.val + 1) := by
      rw [hget]; exact List.drop_eq_getElem_cons (by simp)
    have e1 : (v.set k.val (f k v[k] t)).toList.drop (k.val + 1) = v.toList.drop (k.val + 1) := by
      rw [Vector.toList_set, List.drop_set_of_lt (by omega)]
    have e2 : (v.set k.val (f k v[k] t)).toList.take (k.val + 1) = v.toList.take k.val ++ [f k v[k] t] := by
      rw [Vector.toList_set, List.take_succ_eq_append_getElem (by simp), List.take_set_of_le (by omega)]
      simp
    rw [e1, e2, hdrop, gcons _ hlt]
    simp

/-- `Accumulate` is the spec's loop (R73). -/
theorem accumulate_eq_loop (ck m : Bytes 16) : accumulate ck m = accumulateLoop ck m := by
  have h := setLoop_eq (n := 16) (fun i c last => c ^^^ sbox (m.toList.getD i 0 ^^^ last))
    (fun i cs last => (accumulateFrom cs (m.toList.drop i) last, (accumulateFrom cs (m.toList.drop i) last).getLastD last))
    (fun _ _ => rfl)
    (fun i hi b bs t => by
      have hd : m.toList.drop i = m.toList[i]'(by simpa using hi) :: m.toList.drop (i + 1) :=
        List.drop_eq_getElem_cons (by simpa using hi)
      simp [hd, hi, List.getD, List.getLast?_cons])
    (List.finRange 16) 0 (by decide) (by omega) ck ck[15]
  have h1 := (Prod.mk.inj h).1
  rw [← Vector.toList_inj, accumulate_toList]
  simp only [List.take_zero, List.drop_zero, List.nil_append] at h1
  rw [← h1, accumulateLoop]
  congr 3
  funext p i
  simp [List.getD]

/-- One pass of `Compress_mix` is the spec's inner loop (R76). -/
theorem mixPass_eq_loop (st : Bytes 48) (t : Byte) :
    mixPass st.toList t = ((mixPassLoop st t).1.toList, (mixPassLoop st t).2) := by
  have h := setLoop_eq (n := 48) (fun _ b t => b ^^^ sbox t) (fun _ bs t => mixPass bs t) (fun _ _ => rfl)
    (fun _ _ b bs t => mixPass_cons b bs t) (List.finRange 48) 0 (by decide) (by omega) st t
  simpa [mixPassLoop] using h.symm

end Sys2Proof.Machine
end

