-- ==== Sys2Proof/Laws/Decode.lean ====
section
/-! SUPPORT. The fields of an encoded command and what `decode` can answer (30_encoding R56, R63). -/

namespace Sys2Proof

@[simp] theorem opField_append (op data : Byte) : opField (op ++ data) = op := by
  apply BitVec.eq_of_getLsbD_eq
  intro i hi
  have e : 8 + i - 8 = i := by omega
  rw [opField, BitVec.getLsbD_extractLsb', BitVec.getLsbD_append]
  simp [hi, e]

@[simp] theorem dataField_append (op data : Byte) : dataField (op ++ data) = data := by
  apply BitVec.eq_of_getLsbD_eq
  intro i hi
  rw [dataField, BitVec.getLsbD_extractLsb', BitVec.getLsbD_append]
  simp [hi]

/-- A word is its two fields side by side (R56). -/
theorem word_eq_fields (w : Word) : w = opField w ++ dataField w := by
  unfold opField dataField
  apply BitVec.eq_of_getLsbD_eq
  intro i hi
  rw [BitVec.getLsbD_append]
  by_cases h : i < 8
  · simp [h]
  · have h' : i - 8 < 8 := by omega
    have e : 8 + (i - 8) = i := by omega
    simp [h, h', e]

/-- Everything `decode` can answer, with the fields that make it answer so (R63). -/
theorem decode_cases (w : Word) :
    (opField w = 0x01#8 ∧ decode w = .instr (.absorb (dataField w))) ∨
    (opField w = 0x02#8 ∧ dataField w = 0x00#8 ∧ decode w = .instr .finalize) ∨
    (opField w = 0x03#8 ∧ dataField w = 0x00#8 ∧ decode w = .instr .reset) ∨
    ((opField w = 0x02#8 ∨ opField w = 0x03#8) ∧ dataField w ≠ 0x00#8 ∧ decode w = .illegal .reservedData w) ∨
    (opField w ≠ 0x01#8 ∧ opField w ≠ 0x02#8 ∧ opField w ≠ 0x03#8 ∧ decode w = .illegal .reservedOpcode w) := by
  by_cases h1 : opField w = 0x01#8
  · exact .inl ⟨h1, by rw [decode, if_pos h1]⟩
  by_cases h2 : opField w = 0x02#8
  · by_cases hd : dataField w = 0x00#8
    · exact .inr (.inl ⟨h2, hd, by rw [decode, if_neg h1, if_pos h2, if_pos hd]⟩)
    · exact .inr (.inr (.inr (.inl ⟨.inl h2, hd, by rw [decode, if_neg h1, if_pos h2, if_neg hd]⟩)))
  by_cases h3 : opField w = 0x03#8
  · by_cases hd : dataField w = 0x00#8
    · exact .inr (.inr (.inl ⟨h3, hd, by rw [decode, if_neg h1, if_neg h2, if_pos h3, if_pos hd]⟩))
    · exact .inr (.inr (.inr (.inl ⟨.inr h3, hd, by rw [decode, if_neg h1, if_neg h2, if_pos h3, if_neg hd]⟩)))
  exact .inr (.inr (.inr (.inr ⟨h1, h2, h3, by rw [decode, if_neg h1, if_neg h2, if_neg h3]⟩)))

/-- An illegal word is reported as itself. -/
theorem decode_illegal_word {w w' : Word} {why : IllegalReason} (h : decode w = .illegal why w') : w' = w := by
  rcases decode_cases w with ⟨-, e⟩ | ⟨-, -, e⟩ | ⟨-, -, e⟩ | ⟨-, -, e⟩ | ⟨-, -, -, e⟩ <;>
    simp_all

/-- A word is legal exactly when its field pair is well-formed (R59 to R61). -/
theorem decode_legal_iff_fields (w : Word) :
    (decode w).instr?.isSome = Fields.wellFormed ⟨(opField w).toNat, (dataField w).toNat⟩ := by
  have ho := (opField w).isLt
  have hd := (dataField w).isLt
  rcases decode_cases w with ⟨h, e⟩ | ⟨h, h', e⟩ | ⟨h, h', e⟩ | ⟨h, h', e⟩ | ⟨h, h', h'', e⟩ <;> rw [e]
  · simp [Command.instr?, Fields.wellFormed, Fields.fits, Fields.opcodeKnown, Fields.reservedZero, h]; omega
  · simp [Command.instr?, Fields.wellFormed, Fields.fits, Fields.opcodeKnown, Fields.reservedZero, h, h']
  · simp [Command.instr?, Fields.wellFormed, Fields.fits, Fields.opcodeKnown, Fields.reservedZero, h, h']
  · have h0 : (dataField w).toNat ≠ 0 := fun h0 => h' (BitVec.eq_of_toNat_eq h0)
    rcases h with h | h <;>
      simp [Command.instr?, Fields.wellFormed, Fields.fits, Fields.opcodeKnown, Fields.reservedZero, h, h0]
  · have n1 : (opField w).toNat ≠ 1 := fun c => h (BitVec.eq_of_toNat_eq c)
    have n2 : (opField w).toNat ≠ 2 := fun c => h' (BitVec.eq_of_toNat_eq c)
    have n3 : (opField w).toNat ≠ 3 := fun c => h'' (BitVec.eq_of_toNat_eq c)
    simp [Command.instr?, Fields.wellFormed, Fields.opcodeKnown, n1, n2, n3]

end Sys2Proof
end

