-- ==== Sys2Proof/Laws/Operands.lean ====
section
/-! SUPPORT. The staged and the padded block read byte by byte (41_absorb R82, 42_finalize R88). -/

namespace Sys2Proof.Machine

/-- `BLK[FILL] <- b` changes byte `FILL` only. -/
theorem stageByte_getElem (fill : BitVec 4) (b : Byte) (blk : Bytes 16) (i : Nat) (hi : i < 16) :
    (stageByte fill b blk)[i] = if i = fill.toNat then b else blk[i] := by
  simp only [stageByte, Vector.getElem_set, eq_comm]

@[simp] theorem stageByte_toList (fill : BitVec 4) (b : Byte) (blk : Bytes 16) :
    (stageByte fill b blk).toList = blk.toList.set fill.toNat b := by
  simp [stageByte, Vector.toList_set]

@[simp] theorem padded_toList (fill : BitVec 4) (blk : Bytes 16) :
    (padded fill blk).toList = blk.toList.take fill.toNat ++ List.replicate (16 - fill.toNat) (padValue fill) := rfl

/-- R88: the staged bytes are kept and every byte from `FILL` on is the pad value. -/
theorem padded_getElem (fill : BitVec 4) (blk : Bytes 16) (i : Nat) (hi : i < 16) :
    (padded fill blk)[i] = if i < fill.toNat then blk[i] else padValue fill := by
  simp only [padded, bytesOfList_getElem]
  split
  · rename_i h
    rw [List.getElem_append_left (by simp [hi, h])]; simp
  · rename_i h
    rw [List.getElem_append_right (by simp; omega)]; simp

/-- R88: the pad value is `16 − FILL`, in 1..16. -/
theorem padValue_toNat (fill : BitVec 4) : (padValue fill).toNat = 16 - fill.toNat := by
  have := fill.isLt
  simp only [padValue, BitVec.toNat_ofNat]; omega

/-- The padded block depends only on the staged bytes. -/
theorem padded_congr {fill : BitVec 4} {blk blk' : Bytes 16}
    (h : ∀ i (_ : i < 16), i < fill.toNat → blk[i] = blk'[i]) : padded fill blk = padded fill blk' := by
  apply Vector.ext
  intro i hi
  rw [padded_getElem, padded_getElem]
  split
  · exact h i hi ‹_›
  · rfl

end Sys2Proof.Machine
end

