-- ==== Sys2Proof/Laws/PerInstr.lean ====
section
/-! SUPPORT. Statements made for every command, one lemma per constructor of `Instr`. -/

namespace Sys2Proof.Laws.EncodeSelectsRow

/-- A command's word selects exactly the rows of the opcode map with the command's own mnemonic (30_encoding R59), and the
command is well-formed (R58). -/
def Statement (i : Instr) : Prop :=
  i.wellFormed = true ∧ (opcodeMap.filter fun r => r.selects (encode i)).map (·.mnemonic) = [i.mnemonic]

theorem absorb (b : Byte) : Statement (.absorb b) := by
  refine ⟨rfl, ?_⟩
  have h : ∀ b : Byte, (opcodeMap.filter fun r => r.selects (encode (.absorb b))).map (·.mnemonic) = ["ABSORB"] := by
    decide +kernel
  exact h b

theorem finalize : Statement .finalize := by unfold Statement; decide

theorem reset : Statement .reset := by unfold Statement; decide

end Sys2Proof.Laws.EncodeSelectsRow
end

