-- ==== Sys2Proof/Laws/State.lean ====
section
/-! SUPPORT. What each named operation on the state (Machine/Ops.lean, Machine/Clock.lean) does to each field. -/

namespace Sys2Proof.Machine.State

variable (s : State)

@[simp] theorem absorbByte_st (b : Byte) : (s.absorbByte b).st = s.st := rfl
@[simp] theorem absorbByte_blk (b : Byte) : (s.absorbByte b).blk = stageByte s.fill b s.blk := rfl
@[simp] theorem absorbByte_fill (b : Byte) : (s.absorbByte b).fill = s.fill := rfl
@[simp] theorem absorbByte_ck (b : Byte) : (s.absorbByte b).ck = s.ck := rfl
@[simp] theorem absorbByte_absorbing (b : Byte) : (s.absorbByte b).absorbing = true := rfl
@[simp] theorem absorbByte_dout (b : Byte) : (s.absorbByte b).dout = s.dout := rfl
@[simp] theorem absorbByte_dvalid (b : Byte) : (s.absorbByte b).dvalid = s.dvalid := rfl
@[simp] theorem absorbByte_err (b : Byte) : (s.absorbByte b).err = s.err := rfl
@[simp] theorem absorbByte_pend (b : Byte) : (s.absorbByte b).pend = s.pend := rfl
@[simp] theorem absorbByte_latLeft (b : Byte) : (s.absorbByte b).latLeft = s.latLeft := rfl
@[simp] theorem absorbByte_draws (b : Byte) : (s.absorbByte b).draws = s.draws := rfl
@[simp] theorem absorbByte_inputs (b : Byte) : (s.absorbByte b).inputs = s.inputs := rfl

@[simp] theorem advanceFill_st : s.advanceFill.st = s.st := rfl
@[simp] theorem advanceFill_blk : s.advanceFill.blk = s.blk := rfl
@[simp] theorem advanceFill_fill : s.advanceFill.fill = s.fill + 1#4 := rfl
@[simp] theorem advanceFill_ck : s.advanceFill.ck = s.ck := rfl
@[simp] theorem advanceFill_absorbing : s.advanceFill.absorbing = s.absorbing := rfl
@[simp] theorem advanceFill_dout : s.advanceFill.dout = s.dout := rfl
@[simp] theorem advanceFill_dvalid : s.advanceFill.dvalid = s.dvalid := rfl
@[simp] theorem advanceFill_err : s.advanceFill.err = s.err := rfl
@[simp] theorem advanceFill_pend : s.advanceFill.pend = s.pend := rfl
@[simp] theorem advanceFill_latLeft : s.advanceFill.latLeft = s.latLeft := rfl
@[simp] theorem advanceFill_draws : s.advanceFill.draws = s.draws := rfl
@[simp] theorem advanceFill_inputs : s.advanceFill.inputs = s.inputs := rfl

@[simp] theorem mixBlock_st : s.mixBlock.st = compress s.st s.blk := rfl
@[simp] theorem mixBlock_blk : s.mixBlock.blk = s.blk := rfl
@[simp] theorem mixBlock_fill : s.mixBlock.fill = s.fill := rfl
@[simp] theorem mixBlock_ck : s.mixBlock.ck = accumulate s.ck s.blk := rfl
@[simp] theorem mixBlock_absorbing : s.mixBlock.absorbing = s.absorbing := rfl
@[simp] theorem mixBlock_dout : s.mixBlock.dout = s.dout := rfl
@[simp] theorem mixBlock_dvalid : s.mixBlock.dvalid = s.dvalid := rfl
@[simp] theorem mixBlock_err : s.mixBlock.err = s.err := rfl
@[simp] theorem mixBlock_pend : s.mixBlock.pend = s.pend := rfl
@[simp] theorem mixBlock_latLeft : s.mixBlock.latLeft = s.latLeft := rfl
@[simp] theorem mixBlock_draws : s.mixBlock.draws = s.draws := rfl
@[simp] theorem mixBlock_inputs : s.mixBlock.inputs = s.inputs := rfl

@[simp] theorem drain_st : s.drain.st = compress s.st s.blk := rfl
@[simp] theorem drain_blk : s.drain.blk = s.blk := rfl
@[simp] theorem drain_fill : s.drain.fill = 0#4 := rfl
@[simp] theorem drain_ck : s.drain.ck = accumulate s.ck s.blk := rfl
@[simp] theorem drain_absorbing : s.drain.absorbing = s.absorbing := rfl
@[simp] theorem drain_dout : s.drain.dout = s.dout := rfl
@[simp] theorem drain_dvalid : s.drain.dvalid = s.dvalid := rfl
@[simp] theorem drain_err : s.drain.err = s.err := rfl
@[simp] theorem drain_pend : s.drain.pend = s.pend := rfl
@[simp] theorem drain_latLeft : s.drain.latLeft = s.latLeft := rfl
@[simp] theorem drain_draws : s.drain.draws = s.draws := rfl
@[simp] theorem drain_inputs : s.drain.inputs = s.inputs := rfl

@[simp] theorem padBlock_st : s.padBlock.st = s.st := rfl
@[simp] theorem padBlock_blk : s.padBlock.blk = padded s.fill s.blk := rfl
@[simp] theorem padBlock_fill : s.padBlock.fill = s.fill := rfl
@[simp] theorem padBlock_ck : s.padBlock.ck = s.ck := rfl
@[simp] theorem padBlock_absorbing : s.padBlock.absorbing = s.absorbing := rfl
@[simp] theorem padBlock_dout : s.padBlock.dout = s.dout := rfl
@[simp] theorem padBlock_dvalid : s.padBlock.dvalid = s.dvalid := rfl
@[simp] theorem padBlock_err : s.padBlock.err = s.err := rfl
@[simp] theorem padBlock_pend : s.padBlock.pend = s.pend := rfl
@[simp] theorem padBlock_latLeft : s.padBlock.latLeft = s.latLeft := rfl
@[simp] theorem padBlock_draws : s.padBlock.draws = s.draws := rfl
@[simp] theorem padBlock_inputs : s.padBlock.inputs = s.inputs := rfl

@[simp] theorem mixChecksum_st : s.mixChecksum.st = compress s.st s.ck := rfl
@[simp] theorem mixChecksum_blk : s.mixChecksum.blk = s.blk := rfl
@[simp] theorem mixChecksum_fill : s.mixChecksum.fill = s.fill := rfl
@[simp] theorem mixChecksum_ck : s.mixChecksum.ck = s.ck := rfl
@[simp] theorem mixChecksum_absorbing : s.mixChecksum.absorbing = s.absorbing := rfl
@[simp] theorem mixChecksum_dout : s.mixChecksum.dout = s.dout := rfl
@[simp] theorem mixChecksum_dvalid : s.mixChecksum.dvalid = s.dvalid := rfl
@[simp] theorem mixChecksum_err : s.mixChecksum.err = s.err := rfl
@[simp] theorem mixChecksum_pend : s.mixChecksum.pend = s.pend := rfl
@[simp] theorem mixChecksum_latLeft : s.mixChecksum.latLeft = s.latLeft := rfl
@[simp] theorem mixChecksum_draws : s.mixChecksum.draws = s.draws := rfl
@[simp] theorem mixChecksum_inputs : s.mixChecksum.inputs = s.inputs := rfl

@[simp] theorem latchDigest_st : s.latchDigest.st = s.st := rfl
@[simp] theorem latchDigest_blk : s.latchDigest.blk = s.blk := rfl
@[simp] theorem latchDigest_fill : s.latchDigest.fill = s.fill := rfl
@[simp] theorem latchDigest_ck : s.latchDigest.ck = s.ck := rfl
@[simp] theorem latchDigest_absorbing : s.latchDigest.absorbing = s.absorbing := rfl
@[simp] theorem latchDigest_dout : s.latchDigest.dout = regionA s.st := rfl
@[simp] theorem latchDigest_dvalid : s.latchDigest.dvalid = true := rfl
@[simp] theorem latchDigest_err : s.latchDigest.err = s.err := rfl
@[simp] theorem latchDigest_pend : s.latchDigest.pend = s.pend := rfl
@[simp] theorem latchDigest_latLeft : s.latchDigest.latLeft = s.latLeft := rfl
@[simp] theorem latchDigest_draws : s.latchDigest.draws = s.draws := rfl
@[simp] theorem latchDigest_inputs : s.latchDigest.inputs = s.inputs := rfl

@[simp] theorem clearWorking_st : s.clearWorking.st = zeroBytes 48 := rfl
@[simp] theorem clearWorking_blk : s.clearWorking.blk = zeroBytes 16 := rfl
@[simp] theorem clearWorking_fill : s.clearWorking.fill = 0#4 := rfl
@[simp] theorem clearWorking_ck : s.clearWorking.ck = zeroBytes 16 := rfl
@[simp] theorem clearWorking_absorbing : s.clearWorking.absorbing = false := rfl
@[simp] theorem clearWorking_dout : s.clearWorking.dout = s.dout := rfl
@[simp] theorem clearWorking_dvalid : s.clearWorking.dvalid = s.dvalid := rfl
@[simp] theorem clearWorking_err : s.clearWorking.err = s.err := rfl
@[simp] theorem clearWorking_pend : s.clearWorking.pend = s.pend := rfl
@[simp] theorem clearWorking_latLeft : s.clearWorking.latLeft = s.latLeft := rfl
@[simp] theorem clearWorking_draws : s.clearWorking.draws = s.draws := rfl
@[simp] theorem clearWorking_inputs : s.clearWorking.inputs = s.inputs := rfl

@[simp] theorem clearErr_st : s.clearErr.st = s.st := rfl
@[simp] theorem clearErr_blk : s.clearErr.blk = s.blk := rfl
@[simp] theorem clearErr_fill : s.clearErr.fill = s.fill := rfl
@[simp] theorem clearErr_ck : s.clearErr.ck = s.ck := rfl
@[simp] theorem clearErr_absorbing : s.clearErr.absorbing = s.absorbing := rfl
@[simp] theorem clearErr_dout : s.clearErr.dout = s.dout := rfl
@[simp] theorem clearErr_dvalid : s.clearErr.dvalid = s.dvalid := rfl
@[simp] theorem clearErr_err : s.clearErr.err = false := rfl
@[simp] theorem clearErr_pend : s.clearErr.pend = s.pend := rfl
@[simp] theorem clearErr_latLeft : s.clearErr.latLeft = s.latLeft := rfl
@[simp] theorem clearErr_draws : s.clearErr.draws = s.draws := rfl
@[simp] theorem clearErr_inputs : s.clearErr.inputs = s.inputs := rfl

@[simp] theorem raiseIllegalCommand_st (w : Word) : (s.raiseIllegalCommand w).st = s.st := rfl
@[simp] theorem raiseIllegalCommand_blk (w : Word) : (s.raiseIllegalCommand w).blk = s.blk := rfl
@[simp] theorem raiseIllegalCommand_fill (w : Word) : (s.raiseIllegalCommand w).fill = s.fill := rfl
@[simp] theorem raiseIllegalCommand_ck (w : Word) : (s.raiseIllegalCommand w).ck = s.ck := rfl
@[simp] theorem raiseIllegalCommand_absorbing (w : Word) : (s.raiseIllegalCommand w).absorbing = s.absorbing := rfl
@[simp] theorem raiseIllegalCommand_dout (w : Word) : (s.raiseIllegalCommand w).dout = s.dout := rfl
@[simp] theorem raiseIllegalCommand_dvalid (w : Word) : (s.raiseIllegalCommand w).dvalid = s.dvalid := rfl
@[simp] theorem raiseIllegalCommand_err (w : Word) : (s.raiseIllegalCommand w).err = true := rfl
@[simp] theorem raiseIllegalCommand_pend (w : Word) : (s.raiseIllegalCommand w).pend = s.pend := rfl
@[simp] theorem raiseIllegalCommand_latLeft (w : Word) : (s.raiseIllegalCommand w).latLeft = s.latLeft := rfl
@[simp] theorem raiseIllegalCommand_draws (w : Word) : (s.raiseIllegalCommand w).draws = s.draws := rfl
@[simp] theorem raiseIllegalCommand_inputs (w : Word) : (s.raiseIllegalCommand w).inputs = s.inputs := rfl

@[simp] theorem clearPend_st : s.clearPend.st = s.st := rfl
@[simp] theorem clearPend_blk : s.clearPend.blk = s.blk := rfl
@[simp] theorem clearPend_fill : s.clearPend.fill = s.fill := rfl
@[simp] theorem clearPend_ck : s.clearPend.ck = s.ck := rfl
@[simp] theorem clearPend_absorbing : s.clearPend.absorbing = s.absorbing := rfl
@[simp] theorem clearPend_dout : s.clearPend.dout = s.dout := rfl
@[simp] theorem clearPend_dvalid : s.clearPend.dvalid = s.dvalid := rfl
@[simp] theorem clearPend_err : s.clearPend.err = s.err := rfl
@[simp] theorem clearPend_pend : s.clearPend.pend = none := rfl
@[simp] theorem clearPend_latLeft : s.clearPend.latLeft = s.latLeft := rfl
@[simp] theorem clearPend_draws : s.clearPend.draws = s.draws := rfl
@[simp] theorem clearPend_inputs : s.clearPend.inputs = s.inputs := rfl

@[simp] theorem accept_st (w : Word) : (s.accept w).st = s.st := rfl
@[simp] theorem accept_blk (w : Word) : (s.accept w).blk = s.blk := rfl
@[simp] theorem accept_fill (w : Word) : (s.accept w).fill = s.fill := rfl
@[simp] theorem accept_ck (w : Word) : (s.accept w).ck = s.ck := rfl
@[simp] theorem accept_absorbing (w : Word) : (s.accept w).absorbing = s.absorbing := rfl
@[simp] theorem accept_dout (w : Word) : (s.accept w).dout = s.dout := rfl
@[simp] theorem accept_dvalid (w : Word) : (s.accept w).dvalid = s.dvalid := rfl
@[simp] theorem accept_err (w : Word) : (s.accept w).err = s.err := rfl
@[simp] theorem accept_pend (w : Word) : (s.accept w).pend = some w := rfl
@[simp] theorem accept_latLeft (w : Word) : (s.accept w).latLeft = Config.latencyDraw (latencyKind w s) s.draws := rfl
@[simp] theorem accept_draws (w : Word) : (s.accept w).draws = s.draws + 1 := rfl
@[simp] theorem accept_inputs (w : Word) : (s.accept w).inputs = s.inputs := rfl

@[simp] theorem waitEdge_st (n : Nat) : (s.waitEdge n).st = s.st := rfl
@[simp] theorem waitEdge_blk (n : Nat) : (s.waitEdge n).blk = s.blk := rfl
@[simp] theorem waitEdge_fill (n : Nat) : (s.waitEdge n).fill = s.fill := rfl
@[simp] theorem waitEdge_ck (n : Nat) : (s.waitEdge n).ck = s.ck := rfl
@[simp] theorem waitEdge_absorbing (n : Nat) : (s.waitEdge n).absorbing = s.absorbing := rfl
@[simp] theorem waitEdge_dout (n : Nat) : (s.waitEdge n).dout = s.dout := rfl
@[simp] theorem waitEdge_dvalid (n : Nat) : (s.waitEdge n).dvalid = s.dvalid := rfl
@[simp] theorem waitEdge_err (n : Nat) : (s.waitEdge n).err = s.err := rfl
@[simp] theorem waitEdge_pend (n : Nat) : (s.waitEdge n).pend = s.pend := rfl
@[simp] theorem waitEdge_latLeft (n : Nat) : (s.waitEdge n).latLeft = n := rfl
@[simp] theorem waitEdge_draws (n : Nat) : (s.waitEdge n).draws = s.draws := rfl
@[simp] theorem waitEdge_inputs (n : Nat) : (s.waitEdge n).inputs = s.inputs := rfl

@[simp] theorem hardReset_st : s.hardReset.st = zeroBytes 48 := rfl
@[simp] theorem hardReset_blk : s.hardReset.blk = zeroBytes 16 := rfl
@[simp] theorem hardReset_fill : s.hardReset.fill = 0#4 := rfl
@[simp] theorem hardReset_ck : s.hardReset.ck = zeroBytes 16 := rfl
@[simp] theorem hardReset_absorbing : s.hardReset.absorbing = false := rfl
@[simp] theorem hardReset_dout : s.hardReset.dout = zeroBytes 16 := rfl
@[simp] theorem hardReset_dvalid : s.hardReset.dvalid = false := rfl
@[simp] theorem hardReset_err : s.hardReset.err = false := rfl
@[simp] theorem hardReset_pend : s.hardReset.pend = none := rfl
@[simp] theorem hardReset_latLeft : s.hardReset.latLeft = 0 := rfl
@[simp] theorem hardReset_draws : s.hardReset.draws = s.draws := rfl
@[simp] theorem hardReset_inputs : s.hardReset.inputs = s.inputs := rfl

@[simp] theorem withInputs_st (ps : List Pins) : (s.withInputs ps).st = s.st := rfl
@[simp] theorem withInputs_blk (ps : List Pins) : (s.withInputs ps).blk = s.blk := rfl
@[simp] theorem withInputs_fill (ps : List Pins) : (s.withInputs ps).fill = s.fill := rfl
@[simp] theorem withInputs_ck (ps : List Pins) : (s.withInputs ps).ck = s.ck := rfl
@[simp] theorem withInputs_absorbing (ps : List Pins) : (s.withInputs ps).absorbing = s.absorbing := rfl
@[simp] theorem withInputs_dout (ps : List Pins) : (s.withInputs ps).dout = s.dout := rfl
@[simp] theorem withInputs_dvalid (ps : List Pins) : (s.withInputs ps).dvalid = s.dvalid := rfl
@[simp] theorem withInputs_err (ps : List Pins) : (s.withInputs ps).err = s.err := rfl
@[simp] theorem withInputs_pend (ps : List Pins) : (s.withInputs ps).pend = s.pend := rfl
@[simp] theorem withInputs_latLeft (ps : List Pins) : (s.withInputs ps).latLeft = s.latLeft := rfl
@[simp] theorem withInputs_draws (ps : List Pins) : (s.withInputs ps).draws = s.draws := rfl
@[simp] theorem withInputs_inputs (ps : List Pins) : (s.withInputs ps).inputs = ps := rfl

@[simp] theorem countDraw_st : s.countDraw.st = s.st := rfl
@[simp] theorem countDraw_blk : s.countDraw.blk = s.blk := rfl
@[simp] theorem countDraw_fill : s.countDraw.fill = s.fill := rfl
@[simp] theorem countDraw_ck : s.countDraw.ck = s.ck := rfl
@[simp] theorem countDraw_absorbing : s.countDraw.absorbing = s.absorbing := rfl
@[simp] theorem countDraw_dout : s.countDraw.dout = s.dout := rfl
@[simp] theorem countDraw_dvalid : s.countDraw.dvalid = s.dvalid := rfl
@[simp] theorem countDraw_err : s.countDraw.err = s.err := rfl
@[simp] theorem countDraw_pend : s.countDraw.pend = s.pend := rfl
@[simp] theorem countDraw_latLeft : s.countDraw.latLeft = s.latLeft := rfl
@[simp] theorem countDraw_draws : s.countDraw.draws = s.draws + 1 := rfl
@[simp] theorem countDraw_inputs : s.countDraw.inputs = s.inputs := rfl

@[simp] theorem takePins_st : s.takePins.st = s.st := rfl
@[simp] theorem takePins_blk : s.takePins.blk = s.blk := rfl
@[simp] theorem takePins_fill : s.takePins.fill = s.fill := rfl
@[simp] theorem takePins_ck : s.takePins.ck = s.ck := rfl
@[simp] theorem takePins_absorbing : s.takePins.absorbing = s.absorbing := rfl
@[simp] theorem takePins_dout : s.takePins.dout = s.dout := rfl
@[simp] theorem takePins_dvalid : s.takePins.dvalid = s.dvalid := rfl
@[simp] theorem takePins_err : s.takePins.err = s.err := rfl
@[simp] theorem takePins_pend : s.takePins.pend = s.pend := rfl
@[simp] theorem takePins_latLeft : s.takePins.latLeft = s.latLeft := rfl
@[simp] theorem takePins_draws : s.takePins.draws = s.draws := rfl
@[simp] theorem takePins_inputs : s.takePins.inputs = s.inputs.tail := rfl

@[simp] theorem withPending_st (w : Word) : (s.withPending w).st = s.st := rfl
@[simp] theorem withPending_blk (w : Word) : (s.withPending w).blk = s.blk := rfl
@[simp] theorem withPending_fill (w : Word) : (s.withPending w).fill = s.fill := rfl
@[simp] theorem withPending_ck (w : Word) : (s.withPending w).ck = s.ck := rfl
@[simp] theorem withPending_absorbing (w : Word) : (s.withPending w).absorbing = s.absorbing := rfl
@[simp] theorem withPending_dout (w : Word) : (s.withPending w).dout = s.dout := rfl
@[simp] theorem withPending_dvalid (w : Word) : (s.withPending w).dvalid = s.dvalid := rfl
@[simp] theorem withPending_err (w : Word) : (s.withPending w).err = s.err := rfl
@[simp] theorem withPending_pend (w : Word) : (s.withPending w).pend = some w := rfl
@[simp] theorem withPending_latLeft (w : Word) : (s.withPending w).latLeft = 0 := rfl
@[simp] theorem withPending_draws (w : Word) : (s.withPending w).draws = s.draws := rfl
@[simp] theorem withPending_inputs (w : Word) : (s.withPending w).inputs = Pins.idle :: s.inputs := rfl

end Sys2Proof.Machine.State
end

