-- ==== Sys2Proof/Laws/Step.lean ====
section
/-! SUPPORT. Once for each shared operation: everything it can do. The meanings, the completion of a word, the clock edge
and the step. -/

namespace Sys2Proof.Machine

/-! ### Outcomes -/

section
variable {α β φ ρ : Type}

@[simp] theorem andThen_next (a : α) (f : α → Host.Outcome β φ ρ) : andThen (.next a) f = f a := rfl

/-- A sequence answers a next state exactly when both of its parts do. -/
theorem andThen_eq_next_iff {o : Host.Outcome α φ ρ} {f : α → Host.Outcome β φ ρ} {b : β} :
    andThen o f = .next b ↔ ∃ a, o = .next a ∧ f a = .next b := by
  cases o <;> simp [andThen]

theorem andThen_assoc {γ : Type} (o : Host.Outcome α φ ρ) (f : α → Host.Outcome β φ ρ) (g : β → Host.Outcome γ φ ρ) :
    andThen (andThen o f) g = andThen o fun a => andThen (f a) g := by
  cases o <;> rfl

end

/-! ### The meanings -/

/-- What a legal command makes of the state: the one next state it answers. -/
def effectOf (i : Instr) (s : State) : State :=
  match i with
  | .absorb b => if s.fill = 15#4 then (s.absorbByte b).drain else (s.absorbByte b).advanceFill
  | .finalize => s.padBlock.mixBlock.mixChecksum.latchDigest.clearWorking
  | .reset => s.clearWorking.clearErr

/-- Every command answers its effect. -/
theorem exec_eq (i : Instr) (s : State) : exec i s = .next (effectOf i s) := by
  cases i <;> rfl

/-- What a completing word makes of the state, legal or not (30_encoding R63). -/
def effectOfWord (w : Word) (s : State) : State :=
  match decode w with
  | .instr i => effectOf i s
  | .illegal _ _ => { s with err := true }

theorem execWord_eq (w : Word) (s : State) : execWord w s = .next (effectOfWord w s) := by
  unfold execWord effectOfWord
  cases decode w with
  | instr i => exact exec_eq i s
  | illegal why w' => rfl

theorem complete_eq (w : Word) (s : State) : complete w s = .next (effectOfWord w s).clearPend := by
  simp [complete, execWord_eq]

/-- Every sequence of words answers the state its effects leave, one after the other. -/
theorem execWords_eq (ws : List Word) (s : State) :
    execWords ws s = .next (ws.foldl (fun t w => effectOfWord w t) s) := by
  induction ws generalizing s with
  | nil => rfl
  | cons w ws ih => simp [execWords, execWord_eq, ih]

/-- No command touches what is not its own to touch: the pending word and the model's own fields. -/
theorem effectOf_outside (i : Instr) (s : State) :
    (effectOf i s).pend = s.pend ∧ (effectOf i s).latLeft = s.latLeft ∧
      (effectOf i s).draws = s.draws ∧ (effectOf i s).inputs = s.inputs := by
  cases i with
  | absorb b => by_cases h : s.fill = 15#4 <;> simp [effectOf, h]
  | finalize => simp [effectOf]
  | reset => simp [effectOf]

theorem effectOfWord_outside (w : Word) (s : State) :
    (effectOfWord w s).pend = s.pend ∧ (effectOfWord w s).latLeft = s.latLeft ∧
      (effectOfWord w s).draws = s.draws ∧ (effectOfWord w s).inputs = s.inputs := by
  unfold effectOfWord
  cases decode w with
  | instr i => exact effectOf_outside i s
  | illegal why w' => simp

/-- A command's effect does not depend on the pending word or on the model's own fields. -/
theorem effectOf_withOutside (i : Instr) (s : State) (p : Option Word) (n d : Nat) (ps : List Pins) :
    effectOf i { s with pend := p, latLeft := n, draws := d, inputs := ps } =
      { effectOf i s with pend := p, latLeft := n, draws := d, inputs := ps } := by
  cases i with
  | absorb b =>
    by_cases h : s.fill = 15#4
    · simp only [effectOf, if_pos h]; rfl
    · simp only [effectOf, if_neg h]; rfl
  | finalize => rfl
  | reset => rfl

theorem effectOfWord_withOutside (w : Word) (s : State) (p : Option Word) (n d : Nat) (ps : List Pins) :
    effectOfWord w { s with pend := p, latLeft := n, draws := d, inputs := ps } =
      { effectOfWord w s with pend := p, latLeft := n, draws := d, inputs := ps } := by
  unfold effectOfWord
  cases decode w with
  | instr i => exact effectOf_withOutside i s p n d ps
  | illegal why w' => rfl

/-- The latency parameter of a word depends on the state through `FILL` only. -/
theorem latencyKind_congr (w : Word) {s t : State} (h : s.fill = t.fill) : latencyKind w s = latencyKind w t := by
  cases hd : decode w with
  | instr i => cases i <;> simp [latencyKind, hd, h]
  | illegal why w' => simp [latencyKind, hd]

/-! ### The clock edge -/

/-- Everything a clock edge can do (60_exceptions R104): reset; complete the due word; wait; accept the offered word; or
nothing. The guards exclude one another. -/
theorem clockEdge_cases (p : Pins) (s : State) :
    (p.rst = true ∧ clockEdge p s = .next s.hardReset) ∨
    (p.rst = false ∧ ∃ w, s.pend = some w ∧ s.latLeft = 0 ∧ clockEdge p s = .next (effectOfWord w s).clearPend) ∨
    (p.rst = false ∧ ∃ w n, s.pend = some w ∧ s.latLeft = n + 1 ∧ clockEdge p s = .next (s.waitEdge n)) ∨
    (p.rst = false ∧ s.pend = none ∧ p.cmdValid = true ∧ clockEdge p s = .next (s.accept p.cmdWord)) ∨
    (p.rst = false ∧ s.pend = none ∧ p.cmdValid = false ∧ clockEdge p s = .next s) := by
  unfold clockEdge
  by_cases hr : p.rst
  · simp [hr]
  · cases hp : s.pend with
    | none => by_cases hv : p.cmdValid <;> simp [hr, hv]
    | some w =>
      cases hl : s.latLeft with
      | zero => simp [hr, complete_eq]
      | succ n => simp [hr]

/-- Everything a step can do: one clock edge with the host's next pin values, on the state that has used them up. -/
theorem step_cases {s t : State} (h : step s = .next t) :
    (s.pins.rst = true ∧ t = s.takePins.hardReset) ∨
    (s.pins.rst = false ∧ ∃ w, s.pend = some w ∧ s.latLeft = 0 ∧ t = (effectOfWord w s.takePins).clearPend) ∨
    (s.pins.rst = false ∧ ∃ w n, s.pend = some w ∧ s.latLeft = n + 1 ∧ t = s.takePins.waitEdge n) ∨
    (s.pins.rst = false ∧ s.pend = none ∧ s.pins.cmdValid = true ∧ t = s.takePins.accept s.pins.cmdWord) ∨
    (s.pins.rst = false ∧ s.pend = none ∧ s.pins.cmdValid = false ∧ t = s.takePins) := by
  unfold step at h
  rcases clockEdge_cases s.pins s.takePins with ⟨hr, e⟩ | ⟨hr, w, hp, hl, e⟩ | ⟨hr, w, n, hp, hl, e⟩ | ⟨hr, hp, hv, e⟩ |
      ⟨hr, hp, hv, e⟩ <;>
    rw [e] at h <;> cases h
  · exact .inl ⟨hr, rfl⟩
  · exact .inr (.inl ⟨hr, w, hp, hl, rfl⟩)
  · exact .inr (.inr (.inl ⟨hr, w, n, hp, hl, rfl⟩))
  · exact .inr (.inr (.inr (.inl ⟨hr, hp, hv, rfl⟩)))
  · exact .inr (.inr (.inr (.inr ⟨hr, hp, hv, rfl⟩)))

/-- A step with the pins pushed in front of the host's list is a clock edge with those pins. -/
theorem step_withInputs_cons (p : Pins) (s : State) : step (s.withInputs (p :: s.inputs)) = clockEdge p s := rfl

/-! ### Reads -/

theorem readStatus_snd (s : State) : (readStatus s).2 = { s with draws := (readStatus s).2.draws } := by
  unfold readStatus; split <;> rfl

theorem readDout_snd (sel : BitVec 4) (s : State) : (readDout sel s).2 = { s with draws := (readDout sel s).2.draws } := by
  unfold readDout; split <;> rfl

end Sys2Proof.Machine
end

