-- ==== Sys2Proof/Tests/Slice0.lean ====
section
/-! SUPPORT. Tests on fixed values, each expected result from spec/95_test_vectors.md or a worked example of a rule (named in
the comment), and one witness for every obligation that has hypotheses. -/

namespace Sys2Proof.Tests

open Sys2Proof.Machine

/-! ### Encoding: words written out bit by bit from 30_encoding R56, R59 -/

theorem test_decode_absorb_bits : decode 0b0000000101100001#16 = .instr (.absorb 0x61) := by decide
theorem test_decode_absorb_low : decode 0b0000000100000000#16 = .instr (.absorb 0x00) := by decide
theorem test_decode_absorb_high : decode 0b0000000111111111#16 = .instr (.absorb 0xff) := by decide
theorem test_decode_finalize_bits : decode 0b0000001000000000#16 = .instr .finalize := by decide
theorem test_decode_reset_bits : decode 0b0000001100000000#16 = .instr .reset := by decide
theorem test_encode_absorb : encode (.absorb 0x6d) = 0x016d#16 := by decide

-- 95 L2.7: the words next to the legal ones.
theorem test_decode_zero_word : decode 0x0000#16 = .illegal .reservedOpcode 0x0000 := by decide
theorem test_decode_0201 : decode 0x0201#16 = .illegal .reservedData 0x0201 := by decide
theorem test_decode_0380 : decode 0x0380#16 = .illegal .reservedData 0x0380 := by decide
theorem test_decode_0400 : decode 0x0400#16 = .illegal .reservedOpcode 0x0400 := by decide
theorem test_decode_ffff : decode 0xffff#16 = .illegal .reservedOpcode 0xffff := by decide

theorem test_table_words :
    decodeTableWord 16 0x01ff = some (.absorb 0xff) ∧ decodeTableWord 16 0x0200 = some .finalize ∧
      decodeTableWord 16 0x0300 = some .reset ∧ decodeTableWord 16 0x0301 = none := by decide

/-! ### Well-formedness: each check refuses an ill-formed term -/

theorem smoke_fields_fit : Fields.fits ⟨0x101, 0⟩ = false ∧ Fields.wellFormed ⟨1, 0x100⟩ = false := by decide
theorem smoke_fields_opcode :
    Fields.wellFormed ⟨0x00, 0⟩ = false ∧ Fields.wellFormed ⟨0x04, 0⟩ = false ∧ Fields.wellFormed ⟨0xff, 0⟩ = false := by decide
theorem smoke_fields_reserved :
    Fields.wellFormed ⟨0x02, 0x01⟩ = false ∧ Fields.wellFormed ⟨0x03, 0xff⟩ = false ∧ Fields.wellFormed ⟨0x01, 0xff⟩ = true := by
  decide
theorem smoke_asm_immediates :
    (AsmStmt.absorb (.num 256)).wellFormed = false ∧ (AsmStmt.absorb (.chr (Char.ofNat 233))).wellFormed = false ∧
      (AsmStmt.word 65536).wellFormed = false ∧ (AsmStmt.read 0 16).wellFormed = false ∧
      (AsmStmt.absorbs [.num 1, .num 300]).wellFormed = false ∧ (AsmStmt.digest [.num 300]).wellFormed = false ∧
      (AsmStmt.absorb (.num 255)).wellFormed = true := by decide

/-! ### Datapath -/

-- 95 L2.1, V10 to V16.
theorem test_sbox_entries :
    sbox 0x00 = 0x29 ∧ sbox 0x01 = 0x2e ∧ sbox 0x0f = 0x13 ∧ sbox 0x29 = 0x42 ∧ sbox 0x61 = 0x19 ∧ sbox 0x80 = 0x45 ∧
      sbox 0xff = 0x14 := by decide +kernel

/-- An array written as a list of its bytes (missing bytes 0). -/
def bytes (n : Nat) (l : List Byte) : Bytes n := bytesOfList ((List.range n).map fun i => l.getD i 0) (by simp)

-- 95 V21.
theorem test_accumulate_zero : (accumulate (zeroBytes 16) (zeroBytes 16)).toList =
    [0x29, 0x42, 0x79, 0xfc, 0x9f, 0x0f, 0x13, 0xf3, 0xb4, 0x85, 0x71, 0xb8, 0xd3, 0x8b, 0x65, 0xa5] := by decide +kernel

-- 95 V23: the seed is the old CK[15] and the update is XOR, not assignment.
theorem test_accumulate_chained :
    (accumulate (bytes 16 [0x62, 0x38, 0x67, 0xb6, 0xaf, 0x52, 0x79, 0x5e, 0x5f, 0x21, 0x4e, 0x97, 0x20, 0xbe, 0xea, 0x8d])
      (bytes 16 (List.replicate 16 0x10))).toList =
    [0x22, 0xfc, 0x8c, 0x82, 0x8a, 0x33, 0x45, 0xce, 0x42, 0x7c, 0xe2, 0xc7, 0x4d, 0x49, 0xd4, 0xe1] := by decide +kernel

-- 40_datapath R78 and 95 V26: all three regions, and t after round 0.
theorem test_compress_zero : (compress (zeroBytes 48) (zeroBytes 16)).toList =
    [0x31, 0x81, 0x7b, 0x3b, 0xc7, 0x7d, 0x83, 0x57, 0x97, 0x31, 0x3d, 0x52, 0x6e, 0x88, 0xb8, 0x63,
     0xd0, 0xb5, 0x18, 0x77, 0xca, 0x92, 0x30, 0x1b, 0x47, 0x6b, 0x2f, 0x10, 0xd6, 0xdb, 0xd1, 0xe3,
     0x07, 0x89, 0xe4, 0x2c, 0x12, 0x67, 0x28, 0x6d, 0x57, 0x47, 0xac, 0xf0, 0xf2, 0x94, 0xcc, 0x55] := by decide +kernel
theorem test_mix_round_0 : (mixRound ((zeroBytes 48).toList, 0) 0).2 = 0x80 := by decide +kernel

-- 95 V29: an expand with a region A that is not zero.
theorem test_compress_checksum :
    (regionA (compress
      (bytes 48 [0x13, 0xbe, 0xa5, 0x37, 0x47, 0x03, 0xbd, 0x18, 0x1a, 0x7c, 0x9d, 0x17, 0x29, 0x31, 0x00, 0xe3])
      (bytes 16 [0x19, 0xe2, 0x9d, 0x1b, 0x73, 0x04, 0x36, 0x8e, 0x59, 0x5a, 0x27, 0x6f, 0x30, 0x2f, 0x57, 0xcc]))).toList =
    [0xda, 0x85, 0x3b, 0x0d, 0x3f, 0x88, 0xd9, 0x9b, 0x30, 0x28, 0x3a, 0x69, 0xe6, 0xde, 0xd6, 0xbb] := by decide +kernel

-- 95 V67: a message of two blocks.
theorem test_digest_alphabet :
    (messageDigest ((List.range 26).map fun i => BitVec.ofNat 8 (0x61 + i))).toList =
    [0x4e, 0x8d, 0xdf, 0xf3, 0x65, 0x02, 0x92, 0xab, 0x5a, 0x41, 0x08, 0xc3, 0xaa, 0x47, 0x94, 0x0b] := by decide +kernel

/-! ### Commands, one step each -/

/-- What a step answers, if it is a next state. -/
def nextOf (o : Host.Outcome State Fault Refusal) (d : State) : State :=
  match o with
  | .next s => s
  | _ => d

/-- An engine with the bytes of `l` staged. -/
def staged (l : List Byte) : State :=
  { State.reset with blk := bytes 16 l, fill := BitVec.ofNat 4 l.length, absorbing := true }

/-- The bytes of "0123456789abcdef". -/
def hexDigits : List Byte :=
  [0x30, 0x31, 0x32, 0x33, 0x34, 0x35, 0x36, 0x37, 0x38, 0x39, 0x61, 0x62, 0x63, 0x64, 0x65, 0x66]

/-- One step of `s` with the word `w` accepted and due. -/
def stepWord (w : Nat) (s : State) : State := nextOf (step (s.withFetchWord 16 w)) State.reset

-- 95 V31: STATUS 0x18 and BLK[0] = 0x61.
theorem test_absorb_first_byte :
    (stepWord 0x0161 State.reset).blk.toList.take 2 = [0x61, 0x00] ∧
      (readStatus (stepWord 0x0161 State.reset)).1 = 0x18 := by decide +kernel

-- 95 V35: the sixteenth byte drains; BLK keeps its bytes; STATUS 0x08.
theorem test_absorb_drains :
    let t := stepWord 0x0166 (staged (hexDigits.take 15))
    t.ck.toList = [0xbe, 0x02, 0xbe, 0x2d, 0x93, 0xaf, 0x46, 0xb8, 0x45, 0x9c, 0x11, 0xd2, 0x53, 0x49, 0x8a, 0xeb] ∧
    (regionA t.st).toList = [0x31, 0xb6, 0x1e, 0xff, 0xb6, 0xf0, 0x38, 0x34, 0x40, 0xc1, 0x32, 0xdd, 0xcc, 0xbf, 0x62, 0xf9] ∧
    t.blk.toList = hexDigits ∧ (readStatus t).1 = 0x08 := by decide +kernel

-- 95 V42 and 42_finalize R87: "abc".
theorem test_finalize_abc :
    let t := stepWord 0x0200 (staged [0x61, 0x62, 0x63])
    t.dout.toList = [0xda, 0x85, 0x3b, 0x0d, 0x3f, 0x88, 0xd9, 0x9b, 0x30, 0x28, 0x3a, 0x69, 0xe6, 0xde, 0xd6, 0xbb] ∧
    t.st.toList = List.replicate 48 0 ∧ t.ck.toList = List.replicate 16 0 ∧ (readStatus t).1 = 0x02 := by decide +kernel

-- 95 V46, 42_finalize R88: padding overwrites the stale bytes of the first block.
theorem test_finalize_stale_bytes :
    let s : State :=
      { staged [] with
        blk := bytes 16 (0x67 :: hexDigits.tail), fill := 1
        ck := bytes 16 [0xbe, 0x02, 0xbe, 0x2d, 0x93, 0xaf, 0x46, 0xb8, 0x45, 0x9c, 0x11, 0xd2, 0x53, 0x49, 0x8a, 0xeb]
        st := bytes 48 [0x31, 0xb6, 0x1e, 0xff, 0xb6, 0xf0, 0x38, 0x34, 0x40, 0xc1, 0x32, 0xdd, 0xcc, 0xbf, 0x62, 0xf9] }
    (stepWord 0x0200 s).dout.toList =
      [0xe4, 0xd0, 0xef, 0xde, 0xd5, 0xef, 0x7b, 0x68, 0x43, 0xa5, 0xba, 0x47, 0xe1, 0x17, 0x13, 0x47] := by decide +kernel

-- 95 V58: RESET clears ERR, keeps DVALID and DOUT.
theorem test_reset_keeps_digest :
    let s : State := { staged [0x78] with err := true, dvalid := true, dout := bytes 16 [0xda, 0x85] }
    (readStatus (stepWord 0x0300 s)).1 = 0x02 ∧ (stepWord 0x0300 s).dout.toList.take 2 = [0xda, 0x85] ∧
      (stepWord 0x0300 s).blk.toList = List.replicate 16 0 := by decide +kernel

-- 95 V59, 60_exceptions R102: 0x0301 after "ab" is illegal, keeps the message and sets ERR.
theorem test_illegal_word_keeps_message :
    let t := stepWord 0x0301 (staged [0x61, 0x62])
    (readStatus t).1 = 0x2c ∧ t.blk.toList.take 3 = [0x61, 0x62, 0x00] := by decide +kernel

-- 95 V66.
theorem test_status_layout :
    (readStatus { staged [1, 2, 3] with err := true, dvalid := true }).1 = 0x3e := by decide +kernel

-- 95 V63: DOUT[5] of the digest of "abc".
theorem test_dout_read :
    (readDout 5 { State.reset with dout := bytes 16 [0xda, 0x85, 0x3b, 0x0d, 0x3f, 0x88] }).1 = 0x88 := by decide +kernel

/-- An engine with `w` accepted that still waits `n` edges, and pins to come. -/
def pendingAt (w : Word) (n : Nat) (ps : List Pins) (s : State) : State := { s with pend := some w, latLeft := n, inputs := ps }

-- 95 V62: a reset edge wins over a due completion.
theorem test_reset_edge_wins :
    (nextOf (step (pendingAt 0x0200 0 [Pins.assertRst] (staged [0x61]))) (staged [])).dvalid = false ∧
      (nextOf (step (pendingAt 0x0200 0 [Pins.assertRst] (staged [0x61]))) (staged [])).fill = 0 := by decide +kernel

-- 30_encoding R65, R66: an empty ABSORBS expands to nothing, DIGEST 'a' to two words and WAIT.
theorem test_expand :
    (AsmStmt.absorbs []).expand = [] ∧
      (AsmStmt.digest [.chr 'a']).expand = [.send 0x0161, .send 0x0200, .wait] ∧
      ((AsmStmt.readDigest 2).expand.getLast?) = some (.read 17 15) := by decide +kernel

/-! ### Witnesses: every obligation with hypotheses has inputs that meet them -/

theorem witness_DecodeEncodeRoundTrip : decode 0x01ff#16 = .instr (.absorb 0xff) := by decide

theorem witness_IllegalWordsAndTheirEffect :
    (decode 0x0000#16).instr? = none ∧ (decode 0x02ff#16).instr? = none ∧ (decode 0x0301#16).instr? = none ∧
      (decode 0x0400#16).instr? = none := by decide

theorem witness_ResetStateFields : Pins.assertRst.rst = true := rfl

theorem witness_AbsorbStagesAByte :
    State.reset.fill ≠ 15#4 ∧ (staged (hexDigits.take 14)).fill ≠ 15#4 := by decide +kernel

theorem witness_AbsorbDrainsAFullBlock : (staged (hexDigits.take 15)).fill = 15#4 := by decide +kernel

theorem witness_AbsorbFrame :
    (∃ t, exec (.absorb 0x61) (staged (hexDigits.take 15)) = .next t) ∧ ∃ t, exec (.absorb 0x61) State.reset = .next t :=
  ⟨⟨_, exec_eq _ _⟩, ⟨_, exec_eq _ _⟩⟩

theorem witness_FinalizeAndResetFrame :
    (∃ t, exec .finalize (staged [1]) = .next t) ∧ ∃ t, exec .reset (staged [1]) = .next t :=
  ⟨⟨_, exec_eq _ _⟩, ⟨_, exec_eq _ _⟩⟩

theorem witness_IllegalCommandException :
    (decode 0x0400#16).instr? = none ∧ State.reset.pend = none ∧
      ∃ u, execWord (encode (.absorb 0x62)) (staged [0x61]) = .next u :=
  ⟨by decide, rfl, _, execWord_eq _ _⟩

theorem witness_StepRunsDecodedCommand :
    let s := State.reset.withFetchWord 16 0x0200
    s.pend = some 0x0200#16 ∧ s.latLeft = 0 ∧ s.pins.rst = false ∧ decode 0x0200#16 = .instr .finalize ∧
      decodeTableWord 16 0x01ff = some (.absorb 0xff) := by decide

theorem witness_StepRaisesIllegalCommand :
    let s := pendingAt 0x0400 0 [] (staged [1])
    s.pend = some 0x0400#16 ∧ s.latLeft = 0 ∧ s.pins.rst = false ∧ (decode 0x0400#16).instr? = none := by decide

theorem witness_HardResetEdge : Pins.rst ⟨true, true, 0x0161⟩ = true := rfl

theorem witness_PowerUpThenReset : Pins.assertRst.rst = true := rfl

theorem witness_AcceptanceEdge :
    State.reset.pend = none ∧ (Pins.offer 0x0400).rst = false ∧ (Pins.offer 0x0400).cmdValid = true := by decide

theorem witness_BackPressure :
    (pendingAt 0x0200 3 [] State.reset).pend = some 0x0200#16 ∧ (Pins.offer 0x0300).rst = false ∧ Pins.idle.rst = false ∧
      (pendingAt 0x0200 3 [] State.reset).latLeft = 2 + 1 := by decide

theorem witness_IdleEdgeKeepsTheState :
    State.reset.pend = none ∧ State.reset.pins.rst = false ∧ State.reset.pins.cmdValid = false := by decide

theorem witness_StatusRegisterLayout :
    (staged [1]).pend = none ∧ (pendingAt 0x0200 0 [] State.reset).pend.isSome := by decide

theorem witness_DigestReadPort :
    ((pendingAt 0x0200 0 [] State.reset).pend = some 0x0200#16 ∧ decode 0x0200#16 = .instr .finalize) ∧
      ∀ w, (pendingAt 0x0161 0 [] State.reset).pend = some w → decode w ≠ .instr .finalize := by
  refine ⟨by decide, ?_⟩
  intro w h
  obtain rfl : (0x0161#16 : Word) = w := by simpa [pendingAt] using h
  decide

/-- A working state that differs from zero in regions B and C only. -/
def dirtyBC : Bytes 48 := bytes 48 (List.replicate 16 0 ++ List.replicate 32 0xaa)

theorem witness_ExpandRegions_CompressReadsRegionAOnly :
    dirtyBC.toList ≠ (zeroBytes 48).toList ∧ ∀ i (_ : i < 16), dirtyBC[i] = (zeroBytes 48)[i] := by
  have h : ∀ i : Fin 16, dirtyBC[i.val] = (zeroBytes 48)[i.val] := by decide +kernel
  exact ⟨by decide +kernel, fun i hi => h ⟨i, hi⟩⟩

theorem witness_PaddingRule : (0#4).toNat ≤ 0 ∧ ¬ 0 < (0#4).toNat ∧ (15#4).toNat ≤ 15 ∧ 14 < (15#4).toNat := by decide

theorem reset_cleared : Cleared State.reset := ⟨rfl, rfl, rfl, rfl⟩

theorem witness_RepeatedResetAndIdleReset : Cleared State.reset ∧ State.reset.absorbing = false := ⟨reset_cleared, rfl⟩

/-- A state of a run: the invariant holds, a digest is valid and a word is pending. -/
theorem witness_EveryStepKeepsTheInvariant :
    Inv (pendingAt 0x0200 2 [] { State.reset with dvalid := true, dout := bytes 16 [0xda] }) ∧
      ∃ t, step (pendingAt 0x0200 2 [] { State.reset with dvalid := true, dout := bytes 16 [0xda] }) = .next t :=
  ⟨⟨fun h => by simp [pendingAt] at h, fun h => by simp [pendingAt] at h, fun _ => ⟨rfl, rfl, rfl, rfl⟩⟩, _, rfl⟩

theorem witness_StepsAreTheMovesOfTheSpec :
    (∃ t, step State.reset = .next t) ∧ State.reset.pend = none ∧
      (pendingAt 0x0161 0 [] State.reset).pend.isSome ∧ (pendingAt 0x0161 0 [] State.reset).latLeft = 0 :=
  ⟨⟨_, rfl⟩, rfl, rfl, rfl⟩

theorem witness_EveryPendingCommandCompletes :
    (pendingAt 0x0200 2 [Pins.offer 0x0300, Pins.idle] (staged [1])).pend = some 0x0200#16 ∧
      ∀ p ∈ (pendingAt 0x0200 2 [Pins.offer 0x0300, Pins.idle] (staged [1])).inputs.take 3, p.rst = false := by
  refine ⟨rfl, ?_⟩
  simp [pendingAt, Pins.offer, Pins.idle]

theorem witness_AcceptedCommandCompletesAtItsLatency :
    let s := State.reset.withInputs [Pins.offer 0x0161, Pins.offer 0x0200]
    s.pend = none ∧ s.inputs = Pins.offer 0x0161 :: [Pins.offer 0x0200] ∧ (Pins.offer 0x0161).rst = false ∧
      (Pins.offer 0x0161).cmdValid = true ∧ ∀ q ∈ [Pins.offer 0x0200], q.rst = false := by
  refine ⟨rfl, rfl, rfl, rfl, ?_⟩
  simp [Pins.offer]

/-- Two states that differ in a stale byte and in region B, and their next states. -/
theorem witness_HiddenBytesNeverReachAnOutput :
    SameVisible (staged [1]) { staged [1] with st := dirtyBC, blk := bytes 16 [1, 0xee] } ∧
      ∃ t, step (staged [1]) = .next t := by
  refine ⟨⟨?_, ?_, rfl, rfl, rfl, rfl, rfl, rfl, rfl, rfl, rfl, rfl⟩, _, rfl⟩
  · exact Vector.toList_inj.mp (by decide +kernel)
  · have e : (staged [1]).fill.toNat = 1 := by decide +kernel
    have h0 : (staged [1]).blk[0] = (bytes 16 [1, 0xee])[0] := by decide +kernel
    intro i hi hlt
    have : i = 0 := by omega
    subst this
    exact h0

theorem witness_FlagsAndDoutAreNeverRead :
    SameWorking (staged [1]) { staged [1] with err := true, dvalid := true, absorbing := false, dout := bytes 16 [7] } :=
  ⟨rfl, rfl, rfl, rfl⟩

theorem witness_DigestOfEveryMessage_BlockFraming : Cleared State.reset := reset_cleared

/-- A chunk of one byte with a poll and a pause after it, a chunk of no byte with a read, and one of two bytes. -/
theorem witness_ChunkingInvariance :
    SendsMessage [.send 0x0161, .rdstat 0, .wait, .pause 3] [0x61] ∧ SendsMessage [.read 1 15] [] ∧
      SendsMessage [.send 0x0100, .read 0 0, .send 0x01ff] [0x00, 0xff] ∧
      (HostState.mk State.reset []).engine.pend = none ∧ Cleared (HostState.mk State.reset []).engine :=
  ⟨⟨rfl, by decide⟩, ⟨rfl, by decide⟩, ⟨rfl, by decide⟩, rfl, reset_cleared⟩

theorem witness_ReuseIsolation :
    (∃ t, exec .finalize (staged [1]) = .next t) ∧ ∃ t, exec .reset (staged [1]) = .next t :=
  ⟨⟨_, exec_eq _ _⟩, ⟨_, exec_eq _ _⟩⟩

/-- A due word completes at the coming edge. -/
theorem completesAt (w : Word) (s : State) : CompletesAtEdge (pendingAt w 0 [] s) (decode w) := ⟨rfl, rfl, w, rfl, rfl⟩

/-- ERR set by an illegal word, cleared by RESET and cleared by hard reset. -/
theorem witness_ErrIsSticky :
    (∃ t, step (pendingAt 0x0400 0 [] State.reset) = .next t ∧ t.err = true) ∧
      (∃ t, step (pendingAt 0x0300 0 [] { State.reset with err := true }) = .next t ∧ t.err = false) ∧
      (∃ t, step { State.reset with err := true, inputs := [Pins.assertRst] } = .next t ∧ t.err = false) ∧
      (∃ why w, CompletesAtEdge (pendingAt 0x0400 0 [] State.reset) (.illegal why w)) ∧
      CompletesAtEdge (pendingAt 0x0300 0 [] State.reset) (.instr .reset) :=
  ⟨⟨_, rfl, rfl⟩, ⟨_, rfl, rfl⟩, ⟨_, rfl, rfl⟩, ⟨_, _, completesAt 0x0400 _⟩, completesAt 0x0300 _⟩

/-- DVALID set by FINALIZE and cleared by hard reset. -/
theorem witness_DoutAndDvalidWriters :
    (∃ t, step (pendingAt 0x0200 0 [] State.reset) = .next t ∧ t.dvalid ≠ false) ∧
      (∃ t, step { State.reset with dvalid := true, inputs := [Pins.assertRst] } = .next t ∧ t.dvalid ≠ true) ∧
      CompletesAtEdge (pendingAt 0x0200 0 [] State.reset) (.instr .finalize) :=
  ⟨⟨_, rfl, by decide⟩, ⟨_, rfl, by decide⟩, completesAt 0x0200 _⟩

/-- BLK and FILL written by ABSORB, CK and ST by a drain. -/
theorem witness_WorkingStateWriters :
    (stepWord 0x0161 State.reset).fill ≠ State.reset.fill ∧
      (stepWord 0x0166 (staged (hexDigits.take 15))).ck.toList ≠ (staged (hexDigits.take 15)).ck.toList ∧
      (State.reset.withFetchWord 16 0x0161).pins.rst = false := by decide +kernel

/-- A state for each clause. -/
theorem witness_PhaseTransitions :
    CompletesAtEdge (pendingAt 0x0161 0 [] State.reset) (.instr (.absorb 0x61)) ∧
      CompletesAtEdge (pendingAt 0x0200 0 [] State.reset) (.instr .finalize) ∧
      CompletesAtEdge (pendingAt 0x0300 0 [] (staged [1])) (.instr .reset) ∧
      (∃ why w, CompletesAtEdge (pendingAt 0x0400 0 [] (staged [1])) (.illegal why w)) ∧
      (State.reset.withInputs [Pins.assertRst]).pins.rst = true ∧
      (State.reset.withInputs [Pins.offer 0x0200]).pins.cmdValid = true ∧
      decode (State.reset.withInputs [Pins.offer 0x0200]).pins.cmdWord = .instr .finalize ∧
      State.reset.pins.cmdValid = false ∧ (pendingAt 0x0200 1 [] State.reset).pend ≠ none ∧
      (pendingAt 0x0200 1 [] State.reset).latLeft ≠ 0 :=
  ⟨completesAt 0x0161 _, completesAt 0x0200 _, completesAt 0x0300 _, ⟨_, _, completesAt 0x0400 _⟩, rfl, rfl, by decide, rfl,
    by decide, by decide⟩

theorem witness_InstancesAreIndependent :
    ([State.reset, staged [1]])[1]? = some (staged [1]) ∧ (0 : Nat) ≠ 1 := ⟨rfl, by decide⟩

theorem witness_WaitEnds_SentWordIsAccepted :
    (HostState.mk State.reset []).engine.pend = none ∧
      (HostState.mk (pendingAt 0x0161 2 [] State.reset) []).engine.pend = some 0x0161#16 := ⟨rfl, rfl⟩

theorem witness_DigestStatementReadsTheDigest :
    (HostState.mk State.reset []).engine.pend = none ∧ Cleared (HostState.mk State.reset []).engine :=
  ⟨rfl, reset_cleared⟩

end Sys2Proof.Tests
end

section
/-! SUPPORT. What one clock edge without reset does, what a run of them does to a pending command, and the latency of an
accepted command (00_scope R7). -/

namespace Sys2Proof.Machine

/-! ### One edge without reset -/

/-- R57: an idle engine accepts the word offered to it. -/
theorem step_accept {s : State} (hr : s.pins.rst = false) (hp : s.pend = none) (hv : s.pins.cmdValid = true) :
    step s = .next (s.takePins.accept s.pins.cmdWord) := by
  simp [step, clockEdge, hr, hp, hv]

/-- 10_state R25: while the latency runs, an edge only counts it down. -/
theorem step_wait {s : State} {w : Word} {n : Nat} (hr : s.pins.rst = false) (hp : s.pend = some w)
    (hl : s.latLeft = n + 1) : step s = .next (s.takePins.waitEdge n) := by
  simp [step, clockEdge, hr, hp, hl]

/-- R64 `Complete`: the due word takes its effect and is no longer pending. -/
theorem step_complete {s : State} {w : Word} (hr : s.pins.rst = false) (hp : s.pend = some w) (hl : s.latLeft = 0) :
    step s = .next (effectOfWord w s.takePins).clearPend := by
  simp [step, clockEdge, hr, hp, hl, complete_eq]

/-- The wait changes nothing a command's effect depends on. -/
theorem effectOfWord_takePins_wait (w : Word) (s : State) (n : Nat) (ps : List Pins) :
    effectOfWord w (State.takePins { s with latLeft := n, inputs := ps }) =
      { effectOfWord w s with latLeft := n, inputs := ps.tail } := by
  obtain ⟨hpend, -, hdraws, -⟩ := effectOfWord_outside w s
  simp only [hpend, hdraws]
  exact effectOfWord_withOutside w s s.pend n s.draws ps.tail

/-- The acceptance changes nothing a command's effect depends on. -/
theorem effectOfWord_takePins_accept (v w : Word) (s : State) :
    effectOfWord v (s.takePins.accept w) =
      { effectOfWord v s with
        pend := some w, latLeft := (s.takePins.accept w).latLeft, draws := s.draws + 1, inputs := s.inputs.tail } :=
  effectOfWord_withOutside v s ..

/-! ### Runs of edges -/

/-- A run of one more edge, with that edge last. -/
theorem stepN_succ_last (k : Nat) (s : State) : stepN (k + 1) s = andThen (stepN k s) step := by
  induction k generalizing s with
  | zero =>
    show andThen (step s) (stepN 0) = step s
    cases step s <;> rfl
  | succ k ih =>
    calc stepN (k + 2) s = andThen (step s) (stepN (k + 1)) := rfl
      _ = andThen (step s) fun t => andThen (stepN k t) step := by rw [funext ih]
      _ = andThen (stepN (k + 1) s) step := (andThen_assoc ..).symm

/-- Where the first `n` pin values of `s` keep `rst` at 0, the pins of each of the `n` coming edges do: those of a state `t`
that has used up fewer than `n` of them (idle pins after the end). -/
theorem pins_rst_of_take {s t : State} {n k : Nat} (h : ∀ p ∈ s.inputs.take n, p.rst = false) (hk : k < n)
    (ht : t.inputs = s.inputs.drop k) : t.pins.rst = false := by
  unfold State.pins
  rw [ht]
  by_cases hlen : k < s.inputs.length
  · rw [List.drop_eq_getElem_cons hlen]
    exact h _ (List.mem_take_iff_getElem.mpr ⟨k, by omega, rfl⟩)
  · rw [List.drop_eq_nil_of_le (by omega)]
    rfl

/-- Before its due edge a pending command only waits: `k` edges count `latLeft` down by `k` and use up `k` pin values. -/
theorem stepN_wait {s : State} {w : Word} {k : Nat} (hp : s.pend = some w) (hk : k ≤ s.latLeft)
    (hr : ∀ p ∈ s.inputs.take k, p.rst = false) :
    stepN k s = .next { s with latLeft := s.latLeft - k, inputs := s.inputs.drop k } := by
  induction k with
  | zero => rfl
  | succ k ih =>
    rw [stepN_succ_last, ih (by omega) fun p h => hr p (List.take_subset_take_left _ (by omega) h), andThen_next]
    rw [step_wait (s := { s with latLeft := s.latLeft - k, inputs := s.inputs.drop k }) (n := s.latLeft - (k + 1))
      (pins_rst_of_take hr k.lt_succ_self rfl) hp (by simp only; omega)]
    simp [State.takePins, State.withInputs, State.waitEdge]

/-- A pending command completes at the edge after its wait, with the effect it has on the state it waits in. -/
theorem stepN_complete {s : State} {w : Word} (hp : s.pend = some w)
    (hr : ∀ p ∈ s.inputs.take (s.latLeft + 1), p.rst = false) :
    stepN (s.latLeft + 1) s =
      .next { effectOfWord w s with pend := none, latLeft := 0, inputs := s.inputs.drop (s.latLeft + 1) } := by
  rw [stepN_succ_last, stepN_wait hp le_rfl fun p h => hr p (List.take_subset_take_left _ (by omega) h), andThen_next]
  rw [step_complete (s := { s with latLeft := s.latLeft - s.latLeft, inputs := s.inputs.drop s.latLeft })
    (pins_rst_of_take hr s.latLeft.lt_succ_self rfl) hp (Nat.sub_self _)]
  rw [effectOfWord_takePins_wait, Nat.sub_self, List.tail_drop]
  rfl

/-- Settles O37: the acceptance edge draws the latency, and `stepN_complete` runs the accepted word to its due edge. -/
theorem acceptedCommandCompletesAtItsLatency : Obligations.AcceptedCommandCompletesAtItsLatency := by
  intro s p ps hp hin hrst hv hps lat
  have hpins : s.pins = p := by simp [State.pins, hin]
  have hacc : step s = .next (s.takePins.accept p.cmdWord) := by
    rw [step_accept (by rw [hpins, hrst]) hp (by rw [hpins, hv]), hpins]
  have hlat : (s.takePins.accept p.cmdWord).latLeft + 1 = lat := by
    rw [State.accept_latLeft, latencyKind_congr p.cmdWord s.takePins_fill]
    rfl
  refine ⟨Nat.le_add_left .., effectOfWord p.cmdWord s, execWord_eq .., ?_⟩
  rw [Nat.add_comm, ← hlat]
  show andThen (step s) (stepN _) = _
  rw [hacc, andThen_next, stepN_complete rfl fun q h => hps q (by simpa [hin] using List.mem_of_mem_take h)]
  rw [effectOfWord_takePins_accept, State.accept_inputs, State.takePins_inputs, hin, List.tail_cons]

end Sys2Proof.Machine
end

section
/-! SUPPORT. What each command writes and leaves, field by field, and what a step does in terms of the command that completes
at its edge (30_encoding R64). -/

namespace Sys2Proof.Machine

/-! ### The commands -/

variable (s : State)

theorem effectOf_absorb_drain (b : Byte) (h : s.fill = 15#4) : effectOf (.absorb b) s = (s.absorbByte b).drain :=
  if_pos h

theorem effectOf_absorb_stage (b : Byte) (h : s.fill ≠ 15#4) : effectOf (.absorb b) s = (s.absorbByte b).advanceFill :=
  if_neg h

@[simp] theorem effectOf_finalize :
    effectOf .finalize s = s.padBlock.mixBlock.mixChecksum.latchDigest.clearWorking := rfl

@[simp] theorem effectOf_reset : effectOf .reset s = s.clearWorking.clearErr := rfl

/-- R82: ABSORB leaves `ABSORBING = 1`, whether or not it drains. -/
@[simp] theorem effectOf_absorb_absorbing (b : Byte) : (effectOf (.absorb b) s).absorbing = true := by
  by_cases h : s.fill = 15#4
  · rw [effectOf_absorb_drain s b h]; rfl
  · rw [effectOf_absorb_stage s b h]; rfl

/-- R96: RESET is the only command that writes `ERR`. -/
theorem effectOf_err {i : Instr} (hi : i ≠ .reset) : (effectOf i s).err = s.err := by
  cases i with
  | absorb b => by_cases h : s.fill = 15#4 <;> simp [effectOf, h]
  | finalize => rfl
  | reset => contradiction

/-- R87: FINALIZE is the only command that writes `DOUT` and `DVALID`. -/
theorem effectOf_digest {i : Instr} (hi : i ≠ .finalize) :
    (effectOf i s).dout = s.dout ∧ (effectOf i s).dvalid = s.dvalid := by
  cases i with
  | absorb b => by_cases h : s.fill = 15#4 <;> simp [effectOf, h]
  | finalize => contradiction
  | reset => exact ⟨rfl, rfl⟩

/-! ### A word, by what it decodes to -/

variable {s}

theorem effectOfWord_of_instr {w : Word} {i : Instr} (h : decode w = .instr i) : effectOfWord w s = effectOf i s := by
  simp [effectOfWord, h]

theorem effectOfWord_of_illegal {w w' : Word} {why : IllegalReason} (h : decode w = .illegal why w') :
    effectOfWord w s = { s with err := true } := by
  simp [effectOfWord, h]

/-- Two states stay related under a word when every command keeps them so, and the exception does. -/
theorem effectOfWord_rel {R : State → State → Prop} {u v : State} (hcmd : ∀ i, R (effectOf i u) (effectOf i v))
    (herr : R { u with err := true } { v with err := true }) (w : Word) : R (effectOfWord w u) (effectOfWord w v) := by
  cases hd : decode w with
  | instr i => rw [effectOfWord_of_instr hd, effectOfWord_of_instr hd]; exact hcmd i
  | illegal why w' => rw [effectOfWord_of_illegal hd, effectOfWord_of_illegal hd]; exact herr

/-- A relation that every word keeps holds after every sequence of words. -/
theorem execWords_rel {R : State → State → Prop} {u v : State}
    (hword : ∀ w u v, R u v → R (effectOfWord w u) (effectOfWord w v)) (h : R u v) (ws : List Word) :
    ∃ u' v', execWords ws u = .next u' ∧ execWords ws v = .next v' ∧ R u' v' :=
  ⟨_, _, execWords_eq ws u, execWords_eq ws v, List.foldl_rel h fun w _ => hword w⟩

/-! ### One edge -/

variable {t : State}

/-- 70_reset_and_hazards R116: an edge with `rst` asserted is a hard reset, whatever else is driven. -/
theorem step_hardReset (hr : s.pins.rst = true) : step s = .next s.takePins.hardReset := by
  simp [step, clockEdge, hr]

/-- R27: an edge with nothing pending, nothing offered and no reset only uses up its pin values. -/
theorem step_idle (hr : s.pins.rst = false) (hp : s.pend = none) (hv : s.pins.cmdValid = false) :
    step s = .next s.takePins := by
  simp [step, clockEdge, hr, hp, hv]

/-- A step that completes a command has exactly its effect. -/
theorem step_of_completes_instr {i : Instr} (h : step s = .next t) (hc : CompletesAtEdge s (.instr i)) :
    t = (effectOf i s.takePins).clearPend := by
  obtain ⟨hr, hl, w, hp, hd⟩ := hc
  rw [step_complete hr hp hl, effectOfWord_of_instr hd] at h
  cases h; rfl

/-- A step that completes an illegal word raises the exception. -/
theorem step_of_completes_illegal {why : IllegalReason} {w : Word} (h : step s = .next t)
    (hc : CompletesAtEdge s (.illegal why w)) : t = { s with err := true, pend := none, inputs := s.inputs.tail } := by
  obtain ⟨hr, hl, v, hp, hd⟩ := hc
  rw [step_complete hr hp hl, effectOfWord_of_illegal hd] at h
  cases h; rfl

/-- Everything a step can do to the fields of R15: reset them; complete a command, or an illegal word; or leave all of them but
`PEND` as they are. -/
theorem step_writers (h : step s = .next t) :
    (s.pins.rst = true ∧ t = s.takePins.hardReset) ∨
    (∃ i, CompletesAtEdge s (.instr i) ∧ t = (effectOf i s.takePins).clearPend) ∨
    (∃ why w, CompletesAtEdge s (.illegal why w) ∧ t = { s with err := true, pend := none, inputs := s.inputs.tail }) ∨
    ∃ p n d ps, t = { s with pend := p, latLeft := n, draws := d, inputs := ps } := by
  rcases step_cases h with ⟨hr, e⟩ | ⟨hr, w, hp, hl, -⟩ | ⟨-, w, n, -, -, e⟩ | ⟨-, -, -, e⟩ | ⟨-, -, -, e⟩
  · exact .inl ⟨hr, e⟩
  · cases hd : decode w with
    | instr i =>
      have hc : CompletesAtEdge s (.instr i) := ⟨hr, hl, w, hp, hd⟩
      exact .inr (.inl ⟨i, hc, step_of_completes_instr h hc⟩)
    | illegal why w' =>
      have hc : CompletesAtEdge s (.illegal why w') := ⟨hr, hl, w, hp, hd⟩
      exact .inr (.inr (.inl ⟨why, w', hc, step_of_completes_illegal h hc⟩))
  · exact .inr (.inr (.inr ⟨_, _, _, _, e⟩))
  · exact .inr (.inr (.inr ⟨_, _, _, _, e⟩))
  · exact .inr (.inr (.inr ⟨_, _, _, _, e⟩))

end Sys2Proof.Machine
end

section
/-! SUPPORT. The engine's invariant (10_state R21, R23, R36): it holds at reset and every step keeps it. -/

namespace Sys2Proof.Machine

/-- Settles O34: at reset nothing is pending and every byte is zero. -/
theorem invariantHoldsAtReset : Obligations.InvariantHoldsAtReset :=
  ⟨fun _ => rfl, fun _ => rfl, fun _ => ⟨rfl, rfl, rfl, rfl⟩⟩

theorem Cleared.congr {s t : State} (h : Cleared s) (e : SameWorking s t) : Cleared t :=
  ⟨e.st ▸ h.st, e.blk ▸ h.blk, e.fill ▸ h.fill, e.ck ▸ h.ck⟩

/-- The invariant does not read `draws` or `inputs`, and of a pending word only that its wait is over when there is none. -/
theorem Inv.withOutside {s : State} (h : Inv s) {p : Option Word} {n : Nat} (hn : p = none → n = 0) (d : Nat)
    (ps : List Pins) : Inv { s with pend := p, latLeft := n, draws := d, inputs := ps } :=
  ⟨hn, h.noDigest, fun ha => (h.idleCleared ha).congr ⟨rfl, rfl, rfl, rfl⟩⟩

/-- FINALIZE and RESET leave the working state zero. -/
theorem cleared_clearWorking (s : State) : Cleared s.clearWorking := ⟨rfl, rfl, rfl, rfl⟩

/-- A command keeps the invariant: ABSORB leaves Idle, FINALIZE and RESET clear the working state, and a command that leaves
`DVALID = 0` is not FINALIZE, so it has not written `DOUT`. -/
theorem Inv.effectOf {s : State} (h : Inv s) (i : Instr) : Inv (effectOf i s) := by
  obtain ⟨hpend, hlat, -, -⟩ := effectOf_outside i s
  refine ⟨fun hp => hlat.trans (h.noWait (hpend.symm.trans hp)), fun hv => ?_, fun ha => ?_⟩
  · have hi : i ≠ .finalize := by rintro rfl; cases hv
    obtain ⟨hdout, hdvalid⟩ := effectOf_digest s hi
    exact hdout.trans (h.noDigest (hdvalid.symm.trans hv))
  · cases i with
    | absorb b => simp at ha
    | finalize => exact cleared_clearWorking _
    | reset => exact ⟨rfl, rfl, rfl, rfl⟩

theorem Inv.effectOfWord {s : State} (h : Inv s) (w : Word) : Inv (effectOfWord w s) := by
  cases hd : decode w with
  | instr i => rw [effectOfWord_of_instr hd]; exact h.effectOf i
  | illegal why w' =>
    rw [effectOfWord_of_illegal hd]
    exact ⟨h.noWait, h.noDigest, fun ha => (h.idleCleared ha).congr ⟨rfl, rfl, rfl, rfl⟩⟩

/-- Settles O33: hard reset restores the reset values, a completion keeps the invariant (`Inv.effectOfWord`) and ends with no
wait left, and every other edge changes nothing the invariant speaks of but the wait of a pending word. -/
theorem everyStepKeepsTheInvariant : Obligations.EveryStepKeepsTheInvariant := by
  intro s t hs h
  rcases step_cases h with ⟨-, rfl⟩ | ⟨-, w, -, hl, rfl⟩ | ⟨-, w, n, hp, -, rfl⟩ | ⟨-, -, -, rfl⟩ | ⟨-, -, -, rfl⟩
  · exact invariantHoldsAtReset.withOutside (fun _ => rfl) _ _
  · have hu : Inv s.takePins := hs.withOutside hs.noWait _ _
    have ⟨_, hlat, _⟩ := effectOfWord_outside w s.takePins
    exact (hu.effectOfWord w).withOutside (fun _ => hlat.trans hl) _ _
  · exact hs.withOutside (fun hn => by simp [hp] at hn) _ _
  · exact hs.withOutside (fun hn => by cases hn) _ _
  · exact hs.withOutside hs.noWait _ _

end Sys2Proof.Machine
end

section
/-! SUPPORT. A pending command waits and then completes (30_encoding R63, R64). -/

namespace Sys2Proof.Machine

/-- Settles O36: `stepN_complete` runs the wait and the due edge, `stepN_wait` every edge before it. -/
theorem everyPendingCommandCompletes : Obligations.EveryPendingCommandCompletes := by
  intro s w hp hr
  refine ⟨⟨effectOfWord w s, execWord_eq w s, stepN_complete hp hr⟩, fun k hk => stepN_wait hp hk fun p h => ?_⟩
  exact hr p (List.take_subset_take_left _ (by omega) h)

end Sys2Proof.Machine
end

section
/-! SUPPORT. What never reaches an output: stale bytes of `BLK` and regions B and C of `ST` (10_state R17, R32). -/

namespace Sys2Proof.Machine

/-! ### Compress -/

/-- Compressing reads region A only (40_datapath R77). -/
theorem compress_congr {st st' : Bytes 48} (h : regionA st = regionA st') (m : Bytes 16) :
    compress st m = compress st' m :=
  congrArg mix (expand_congr h m)

/-- Settles O27: expanding overwrites regions B and C, so `compress_congr` needs the bytes of region A only. -/
theorem compressReadsRegionAOnly : Obligations.CompressReadsRegionAOnly := by
  refine ⟨fun st m => rfl, fun st st' m h => compress_congr (Vector.ext fun i hi => ?_) m⟩
  rw [regionA_getElem, regionA_getElem]
  exact h i hi

/-! ### Commands -/

/-- R30: whether a FINALIZE is pending is a fact about `PEND`. -/
theorem finalizePending_congr {s t : State} (h : s.pend = t.pend) : s.finalizePending = t.finalizePending := by
  simp only [State.finalizePending, h]

/-- Staging a byte makes one more byte of the block visible. -/
theorem stageByte_congr {fill : BitVec 4} {blk blk' : Bytes 16} (b : Byte)
    (h : ∀ i (_ : i < 16), i < fill.toNat → blk[i] = blk'[i]) (i : Nat) (hi : i < 16) (hf : i ≤ fill.toNat) :
    (stageByte fill b blk)[i] = (stageByte fill b blk')[i] := by
  rw [stageByte_getElem, stageByte_getElem]
  split
  · rfl
  · exact h i hi (by omega)

namespace SameVisible

variable {s t : State}

/-- The byte that fills the block completes it: no stale byte is left. -/
theorem stageByte_full (h : SameVisible s t) (b : Byte) (hf : s.fill = 15#4) :
    stageByte s.fill b s.blk = stageByte t.fill b t.blk := by
  rw [← h.fill]
  exact Vector.ext fun i hi => stageByte_congr b h.staged i hi (by rw [hf]; exact Nat.le_of_lt_succ hi)

theorem clearPend (h : SameVisible s t) : SameVisible s.clearPend t.clearPend := { h with pend := rfl }

/-- A command reads the staged bytes and region A only: ABSORB through the full or the staged block, FINALIZE through the
padded block, RESET none. -/
theorem effectOf (h : SameVisible s t) (i : Instr) : SameVisible (effectOf i s) (effectOf i t) := by
  cases i with
  | absorb b =>
    by_cases hf : s.fill = 15#4
    · rw [effectOf_absorb_drain s b hf, effectOf_absorb_drain t b (h.fill ▸ hf)]
      have hblk := h.stageByte_full b hf
      have hst := compress_congr h.regionA (stageByte t.fill b t.blk)
      exact { h with
        regionA := by simp [hblk, hst]
        staged := fun i hi _ => by simp [hblk]
        fill := rfl
        ck := by simp [hblk, h.ck]
        absorbing := rfl }
    · rw [effectOf_absorb_stage s b hf, effectOf_absorb_stage t b (h.fill ▸ hf)]
      exact { h with
        staged := fun i hi hlt => by
          have hle : i ≤ s.fill.toNat := by
            rw [State.advanceFill_fill, State.absorbByte_fill, BitVec.toNat_add, BitVec.toNat_ofNat] at hlt
            omega
          simpa [h.fill] using stageByte_congr b h.staged i hi hle
        fill := congrArg (· + 1#4) h.fill
        absorbing := rfl }
  | finalize =>
    have hblk : padded s.fill s.blk = padded t.fill t.blk := h.fill ▸ padded_congr h.staged
    have hst := compress_congr h.regionA (padded t.fill t.blk)
    exact { h with
      regionA := rfl
      staged := fun _ _ _ => rfl
      fill := rfl
      ck := rfl
      absorbing := rfl
      dout := by simp [hblk, hst, h.ck]
      dvalid := rfl }
  | reset =>
    exact { h with
      regionA := rfl
      staged := fun _ _ _ => rfl
      fill := rfl
      ck := rfl
      absorbing := rfl
      err := rfl }

theorem effectOfWord (h : SameVisible s t) (w : Word) : SameVisible (effectOfWord w s) (effectOfWord w t) :=
  effectOfWord_rel h.effectOf { h with err := rfl } w

/-! ### Edges and outputs -/

theorem pins (h : SameVisible s t) : s.pins = t.pins := congrArg (·.headD Pins.idle) h.inputs

theorem takePins (h : SameVisible s t) : SameVisible s.takePins t.takePins :=
  { h with inputs := congrArg List.tail h.inputs }

theorem hardReset (h : SameVisible s t) : SameVisible s.hardReset t.hardReset :=
  ⟨rfl, fun _ _ _ => rfl, rfl, rfl, rfl, rfl, rfl, rfl, rfl, rfl, h.draws, h.inputs⟩

/-- The latency drawn at an acceptance depends on `FILL` and on the count of draws. -/
theorem accept (h : SameVisible s t) (w : Word) : SameVisible (s.accept w) (t.accept w) :=
  { h with
    pend := rfl
    latLeft := by simp only [State.accept_latLeft, latencyKind_congr w h.fill, h.draws]
    draws := congrArg (· + 1) h.draws }

/-- Both engines make the same kind of step, and its result hides the same bytes. -/
theorem step {s' : State} (h : SameVisible s t) (hs : Machine.step s = .next s') :
    ∃ t', Machine.step t = .next t' ∧ SameVisible s' t' := by
  rcases step_cases hs with ⟨hr, rfl⟩ | ⟨hr, w, hp, hl, rfl⟩ | ⟨hr, w, n, hp, hl, rfl⟩ | ⟨hr, hp, hv, rfl⟩ |
      ⟨hr, hp, hv, rfl⟩
  all_goals rw [h.pins] at hr
  · exact ⟨_, step_hardReset hr, h.takePins.hardReset⟩
  · exact ⟨_, step_complete hr (h.pend ▸ hp) (h.latLeft ▸ hl), (h.takePins.effectOfWord w).clearPend⟩
  · exact ⟨_, step_wait hr (h.pend ▸ hp) (h.latLeft.symm.trans hl), { h.takePins with latLeft := rfl }⟩
  · rw [h.pins] at hv ⊢
    exact ⟨_, step_accept hr (h.pend ▸ hp) hv, h.takePins.accept _⟩
  · exact ⟨_, step_idle hr (h.pend ▸ hp) (h.pins ▸ hv), h.takePins⟩

theorem busy (h : SameVisible s t) : s.busy = t.busy := congrArg Option.isSome h.pend

theorem readStatus (h : SameVisible s t) : (readStatus s).1 = (readStatus t).1 := by
  simp only [Machine.readStatus, State.statusByte, State.statusFields, h.busy, h.draws, h.fill, h.absorbing, h.err,
    h.dvalid]

theorem readDout (h : SameVisible s t) (sel : BitVec 4) : (readDout sel s).1 = (readDout sel t).1 := by
  simp only [Machine.readDout, finalizePending_congr h.pend, h.draws, h.dout]
  split <;> rfl

theorem cmdReady (h : SameVisible s t) (rst : Bool) : s.cmdReady rst = t.cmdReady rst := by
  simp only [State.cmdReady, h.busy]

end SameVisible

/-- Settles O39: no read and no edge tells two such states apart. -/
theorem hiddenBytesNeverReachAnOutput : Obligations.HiddenBytesNeverReachAnOutput :=
  fun _ _ h => ⟨h.readStatus, h.readDout, h.cmdReady, fun _ hs => h.step hs⟩

end Sys2Proof.Machine
end

section
/-! SUPPORT. What no command reads: the flags and `DOUT` (10_state R21, R36; 60_exceptions R106). So after FINALIZE or RESET
nothing of earlier messages is left (43_reset R98). -/

namespace Sys2Proof.Machine

namespace SameWorking

variable {s t : State}

/-- The four working fields after a command are functions of the four working fields before it. -/
theorem effectOf (h : SameWorking s t) (i : Instr) : SameWorking (effectOf i s) (effectOf i t) := by
  obtain ⟨hst, hblk, hfill, hck⟩ := h
  cases i with
  | absorb b =>
    by_cases hf : s.fill = 15#4
    · rw [effectOf_absorb_drain s b hf, effectOf_absorb_drain t b (hfill ▸ hf)]
      constructor <;> simp [hst, hblk, hfill, hck]
    · rw [effectOf_absorb_stage s b hf, effectOf_absorb_stage t b (hfill ▸ hf)]
      constructor <;> simp [hst, hblk, hfill, hck]
  | finalize => exact ⟨rfl, rfl, rfl, rfl⟩
  | reset => exact ⟨rfl, rfl, rfl, rfl⟩

theorem effectOfWord (h : SameWorking s t) (w : Word) : SameWorking (effectOfWord w s) (effectOfWord w t) :=
  effectOfWord_rel h.effectOf ⟨h.st, h.blk, h.fill, h.ck⟩ w

/-- R87: the digest of a FINALIZE is a function of the four working fields. -/
theorem finalize_dout (h : SameWorking s t) :
    (Machine.effectOf .finalize s).dout = (Machine.effectOf .finalize t).dout := by
  simp [h.st, h.blk, h.fill, h.ck]

end SameWorking

/-- Settles O40: every word keeps `SameWorking`, and FINALIZE computes its digest from those fields alone. -/
theorem flagsAndDoutAreNeverRead : Obligations.FlagsAndDoutAreNeverRead := by
  intro s t ws h
  obtain ⟨u, v, hu, hv, huv⟩ := execWords_rel (fun w _ _ h => h.effectOfWord w) h ws
  exact ⟨u, v, hu, hv, huv, _, _, exec_eq .finalize u, exec_eq .finalize v, huv.finalize_dout⟩

/-- How a reused engine and a fresh one agree: the same working state and phase flag, and every digest the fresh one has
computed is the digest of the reused one. Their older digests and their error flags may differ. -/
structure SameSinceClear (u v : State) : Prop extends SameWorking u v where
  absorbing : u.absorbing = v.absorbing
  digest : v.dvalid = true → u.dvalid = true ∧ u.dout = v.dout

namespace SameSinceClear

variable {u v : State}

/-- A command keeps the agreement: FINALIZE computes the same digest in both, the other commands compute none. -/
theorem effectOf (h : SameSinceClear u v) (i : Instr) : SameSinceClear (effectOf i u) (effectOf i v) where
  toSameWorking := h.toSameWorking.effectOf i
  absorbing := by cases i <;> simp
  digest hv := by
    by_cases hi : i = .finalize
    · subst hi
      exact ⟨rfl, h.finalize_dout⟩
    · obtain ⟨hdu, hvu⟩ := effectOf_digest u hi
      obtain ⟨hdv, hvv⟩ := effectOf_digest v hi
      rw [hdu, hvu, hdv]
      exact h.digest (hvv ▸ hv)

theorem effectOfWord (h : SameSinceClear u v) (w : Word) : SameSinceClear (effectOfWord w u) (effectOfWord w v) :=
  effectOfWord_rel h.effectOf { h with } w

end SameSinceClear

/-- FINALIZE and RESET leave an engine that agrees with a fresh one, which has no digest yet. -/
theorem sameSinceClear_reset {s s₁ : State} (h : exec .finalize s = .next s₁ ∨ exec .reset s = .next s₁) :
    SameSinceClear s₁ State.reset := by
  rcases h with h | h <;> cases h <;> exact ⟨⟨rfl, rfl, rfl, rfl⟩, rfl, nofun⟩

/-- Settles O44: the agreement with a fresh engine holds after FINALIZE or RESET and every word keeps it. -/
theorem reuseIsolation : Obligations.ReuseIsolation := by
  intro s s₁ ws h
  obtain ⟨u, v, hu, hv, huv⟩ := execWords_rel (fun w _ _ h => h.effectOfWord w) (sameSinceClear_reset h) ws
  exact ⟨u, v, hu, hv, huv.toSameWorking, huv.absorbing, huv.digest⟩

end Sys2Proof.Machine
end

section
/-! SUPPORT. Which events write a field of R15 (10_state R16 to R24), from `step_writers`. -/

namespace Sys2Proof.Machine

/-- Settles O45: RESET and hard reset write `ERR ← 0`, an illegal word writes `ERR ← 1`, and nothing else writes it. -/
theorem errIsSticky : Obligations.ErrIsSticky := by
  intro s t h
  refine ⟨fun h0 h1 => ?_, fun h1 h0 => ?_, fun why w hc => ?_, fun hc => ?_⟩
  · rcases step_writers h with ⟨-, rfl⟩ | ⟨i, -, rfl⟩ | ⟨why, w, hc, -⟩ | ⟨p, n, d, ps, rfl⟩
    · simp at h1
    · by_cases hi : i = .reset
      · simp [hi] at h1
      · simp [effectOf_err _ hi, h0] at h1
    · exact ⟨why, w, hc⟩
    · simp [h0] at h1
  · rcases step_writers h with ⟨hr, -⟩ | ⟨i, hc, rfl⟩ | ⟨why, w, -, rfl⟩ | ⟨p, n, d, ps, rfl⟩
    · exact .inl hr
    · by_cases hi : i = .reset
      · exact .inr (hi ▸ hc)
      · simp [effectOf_err _ hi, h1] at h0
    · simp at h0
    · simp [h1] at h0
  · rw [step_of_completes_illegal h hc]
  · rw [step_of_completes_instr h hc]; rfl

/-- Settles O46: only FINALIZE (`effectOf_digest`) and hard reset write the two fields. -/
theorem doutAndDvalidWriters : Obligations.DoutAndDvalidWriters := by
  intro s t h
  refine ⟨fun hne => ?_, fun hr => ?_, fun hc => ?_⟩
  · rcases step_writers h with ⟨hr, -⟩ | ⟨i, hc, rfl⟩ | ⟨why, w, -, rfl⟩ | ⟨p, n, d, ps, rfl⟩
    · exact .inl hr
    · by_cases hi : i = .finalize
      · exact .inr (hi ▸ hc)
      · simp [effectOf_digest _ hi] at hne
    · simp at hne
    · simp at hne
  · rw [step_hardReset hr] at h
    cases h
    exact ⟨rfl, rfl⟩
  · rw [step_of_completes_instr h hc]; rfl

/-- R82: an ABSORB that does not fill the block leaves `ST` and `CK`. -/
theorem effectOf_absorb_sums (s : State) (b : Byte) (h : s.fill ≠ 15#4) :
    (effectOf (.absorb b) s).st = s.st ∧ (effectOf (.absorb b) s).ck = s.ck := by
  rw [effectOf_absorb_stage s b h]
  exact ⟨rfl, rfl⟩

/-- Settles O47: every command may write `BLK` and `FILL`, and an ABSORB writes `ST` and `CK` only where it drains. -/
theorem workingStateWriters : Obligations.WorkingStateWriters := by
  intro s t h hr
  rcases step_writers h with ⟨hr', -⟩ | ⟨i, hc, rfl⟩ | ⟨why, w, -, rfl⟩ | ⟨p, n, d, ps, rfl⟩
  · simp [hr] at hr'
  · cases i with
    | absorb b =>
      refine ⟨fun hne => .inl ⟨?_, b, hc⟩, fun _ => .inl ⟨b, hc⟩⟩
      by_contra hf
      simp [effectOf_absorb_sums s.takePins b hf] at hne
    | finalize => exact ⟨fun _ => .inr (.inl hc), fun _ => .inr (.inl hc)⟩
    | reset => exact ⟨fun _ => .inr (.inr hc), fun _ => .inr (.inr hc)⟩
  · simp
  · simp

end Sys2Proof.Machine
end

section
/-! SUPPORT. The phases of the engine (10_state R30). -/

namespace Sys2Proof.Machine

/-- With nothing pending the phase is the flag `ABSORBING`. -/
theorem phase_of_idle {s : State} (hp : s.pend = none) : s.phase = if s.absorbing then .absorbing else .idle := by
  simp [State.phase, State.finalizePending, hp]

/-- With a word pending the engine is Finalizing when it is FINALIZE's, and otherwise in the phase of `ABSORBING`. -/
theorem phase_of_pending {s : State} {w : Word} (hp : s.pend = some w) :
    s.phase = if decode w = .instr .finalize then .finalizing else if s.absorbing then .absorbing else .idle := by
  simp [State.phase, State.finalizePending, hp]

/-- The phase is a function of `PEND` and `ABSORBING`. -/
theorem phase_congr {s t : State} (hp : t.pend = s.pend) (ha : t.absorbing = s.absorbing) : t.phase = s.phase := by
  simp only [State.phase, finalizePending_congr hp, ha]

/-- Settles O48: each edge by what it leaves in `PEND` and `ABSORBING`. -/
theorem phaseTransitions : Obligations.PhaseTransitions := by
  intro s t h
  refine ⟨fun hr => ?_, fun b hc => ?_, fun hc => ?_, fun hc => ?_, fun why w hc => ?_, fun hr hp hv => ?_,
    fun hr hp hv => ?_, fun hr hp hl => ?_⟩
  · rw [step_hardReset hr] at h
    cases h
    rfl
  · rw [step_of_completes_instr h hc, phase_of_idle rfl]
    simp
  · rw [step_of_completes_instr h hc]; rfl
  · rw [step_of_completes_instr h hc]; rfl
  · have ⟨_, _, v, hp, hd⟩ := hc
    rw [step_of_completes_illegal h hc, phase_of_idle rfl, phase_of_pending hp]
    simp [hd]
  · rw [step_accept hr hp hv] at h
    cases h
    rw [phase_of_pending rfl, phase_of_idle hp]
    rfl
  · rw [step_idle hr hp hv] at h
    cases h
    exact phase_congr rfl rfl
  · obtain ⟨w, hw⟩ := Option.ne_none_iff_exists'.mp hp
    obtain ⟨n, hn⟩ := Nat.exists_eq_succ_of_ne_zero hl
    rw [step_wait hr hw hn] at h
    cases h
    exact phase_congr rfl rfl

end Sys2Proof.Machine
end

section
/-! SUPPORT. The STATUS byte bit by bit and the fields of the reset state (10_state R26, R34). -/

namespace Sys2Proof.Machine

/-- Settles O5: the reset state and every hard reset hold the same fields, all zero. -/
theorem resetStateFields : Obligations.ResetStateFields := by
  unfold Obligations.ResetStateFields
  intro atReset
  have zero (d : Nat) (ps : List Pins) : atReset { State.reset with draws := d, inputs := ps } :=
    ⟨zeroBytes_getElem 48, zeroBytes_getElem 16, rfl, zeroBytes_getElem 16, rfl, zeroBytes_getElem 16, rfl, rfl, rfl⟩
  exact ⟨zero 0 [], fun p s hp => ⟨s.hardReset, by simp [clockEdge, hp], zero s.draws s.inputs⟩⟩

/-- R25, R26: bit 0 of STATUS is `BUSY`. -/
theorem statusByte_getLsbD_zero (free : BitVec 7) (s : State) : (s.statusByte free).getLsbD 0 = s.busy :=
  BitVec.getLsbD_concat_zero

/-- R26, R43: the bits of STATUS above bit 0 are the fields, or the free value while the engine is busy. -/
theorem statusByte_getLsbD_succ (free : BitVec 7) (s : State) (i : Nat) :
    (s.statusByte free).getLsbD (i + 1) = (if s.busy then free else s.statusFields).getLsbD i :=
  BitVec.getLsbD_concat_succ

theorem statusFields_dvalid (s : State) : s.statusFields.getLsbD 0 = s.dvalid := BitVec.getLsbD_concat_zero

theorem statusFields_err (s : State) : s.statusFields.getLsbD 1 = s.err :=
  BitVec.getLsbD_concat_succ.trans BitVec.getLsbD_concat_zero

theorem statusFields_absorbing (s : State) : s.statusFields.getLsbD 2 = s.absorbing :=
  BitVec.getLsbD_concat_succ.trans (BitVec.getLsbD_concat_succ.trans BitVec.getLsbD_concat_zero)

theorem statusFields_fill (s : State) (i : Nat) : s.statusFields.getLsbD (i + 3) = s.fill.getLsbD i :=
  BitVec.getLsbD_concat_succ.trans (BitVec.getLsbD_concat_succ.trans BitVec.getLsbD_concat_succ)

/-- Settles O20: bit 0 is `BUSY`, and the bits above it are the fields or a free value. -/
theorem statusRegisterLayout : Obligations.StatusRegisterLayout := by
  refine ⟨fun s => statusByte_getLsbD_zero _ s, fun s hp => ?_, fun s hp => ⟨?_, ?_⟩, by decide⟩
  · have bit (i : Nat) : (readStatus s).1.getLsbD (i + 1) = s.statusFields.getLsbD i := by
      rw [readStatus, statusByte_getLsbD_succ]
      simp [State.busy, hp]
    refine ⟨(bit 0).trans (statusFields_dvalid s), (bit 1).trans (statusFields_err s),
      (bit 2).trans (statusFields_absorbing s), BitVec.eq_of_getLsbD_eq fun i hi => ?_⟩
    rw [BitVec.getLsbD_extractLsb', Nat.add_comm 4 i, bit (i + 3), statusFields_fill]
    simp [hi]
  · refine BitVec.eq_of_getLsbD_eq fun i hi => ?_
    rw [BitVec.getLsbD_extractLsb', Nat.add_comm 1 i, readStatus, statusByte_getLsbD_succ]
    simp [State.busy, hp, hi]
  · simp [readStatus, State.busy, hp]

end Sys2Proof.Machine
end

section
/-! SUPPORT. A message as the spec reads it: the words of its commands, its blocks and its padding (20_memory R40,
30_encoding R63, 42_finalize R88). -/

namespace Sys2Proof

/-- R63: the word of a command decodes to the command. -/
@[simp] theorem decode_encode (i : Instr) : decode (encode i) = .instr i := by
  cases i with
  | absorb b => simp [decode, encode]
  | finalize => rfl
  | reset => rfl

namespace Machine

/-- A command's own word has the command's effect. -/
@[simp] theorem effectOfWord_encode (i : Instr) (s : State) : effectOfWord (encode i) s = effectOf i s :=
  effectOfWord_of_instr (decode_encode i)

/-! ### Blocks -/

theorem blockOf_getElem (m : List Byte) (n i : Nat) (hi : i < 16) : (blockOf m n)[i] = m.getD (16 * n + i) 0#8 := by
  simp [blockOf]

/-- R40: a block is the 16 message bytes from its start on. -/
theorem blockOf_eq_of_getElem? {m : List Byte} {n : Nat} {blk : Bytes 16}
    (h : ∀ i (_ : i < 16), m[16 * n + i]? = some blk[i]) : blockOf m n = blk := by
  refine Vector.ext fun i hi => ?_
  rw [blockOf_getElem, List.getD_eq_getElem?_getD, h i hi, Option.getD_some]

/-- Bytes that follow a complete block do not change it. -/
theorem blockOf_append {m : List Byte} {n : Nat} (h : 16 * (n + 1) ≤ m.length) (m' : List Byte) :
    blockOf (m ++ m') n = blockOf m n := by
  refine Vector.ext fun i hi => ?_
  rw [blockOf_getElem, blockOf_getElem, List.getD_append _ _ _ _ (by omega)]

/-- Bytes that follow the first `n` blocks do not change what those leave. -/
theorem afterBlocks_append {m : List Byte} {n : Nat} (h : 16 * n ≤ m.length) (m' : List Byte) :
    afterBlocks (m ++ m') n = afterBlocks m n := by
  induction n with
  | zero => rfl
  | succ n ih => simp only [afterBlocks, blockOf_append h, ih (by omega)]

/-! ### Padding -/

theorem length_padMessage (m : List Byte) : (padMessage m).length = 16 * (m.length / 16 + 1) := by
  simp only [padMessage, List.length_append, List.length_replicate]
  omega

/-- The digest, from what the complete blocks of the message leave and its padded last block. -/
theorem messageDigest_eq (m : List Byte) :
    messageDigest m =
      let p := afterBlocks m (m.length / 16)
      let last := blockOf (padMessage m) (m.length / 16)
      regionA (compress (compress p.2 last) (accumulate p.1 last)) := by
  have hblocks : (padMessage m).length / 16 = m.length / 16 + 1 := by rw [length_padMessage]; omega
  have hfull : afterBlocks (padMessage m) (m.length / 16) = afterBlocks m (m.length / 16) :=
    afterBlocks_append (Nat.mul_div_le ..) _
  simp only [messageDigest, hblocks, afterBlocks, hfull]

end Machine
end Sys2Proof
end

section
/-! SUPPORT. The engine in the middle of a message: what its ABSORBs leave drained and staged, and the digest that FINALIZE
makes of it (20_memory R40, 41_absorb R84, 42_finalize R87). -/

namespace Sys2Proof.Machine

/-! ### The engine with a message absorbed -/

/-- `t` is the engine `s` once it has absorbed the message `m` from a cleared working state: the complete blocks of `m` are
drained and its remaining bytes staged, and no other field but `ABSORBING` has changed (41_absorb R84). -/
structure Absorbed (s : State) (m : List Byte) (t : State) : Prop where
  fill : t.fill.toNat = m.length % 16
  sums : (t.ck, t.st) = afterBlocks m (m.length / 16)
  staged : ∀ i (_ : i < 16), i < m.length % 16 → m[16 * (m.length / 16) + i]? = some t.blk[i]
  absorbing : t.absorbing = (s.absorbing || !m.isEmpty)
  frame : t = { s with st := t.st, blk := t.blk, fill := t.fill, ck := t.ck, absorbing := t.absorbing }

/-- R82: ABSORB writes the working state and `ABSORBING` only. -/
theorem effectOf_absorb_frame (b : Byte) (s : State) :
    effectOf (.absorb b) s =
      { s with
        st := (effectOf (.absorb b) s).st, blk := (effectOf (.absorb b) s).blk, fill := (effectOf (.absorb b) s).fill,
        ck := (effectOf (.absorb b) s).ck, absorbing := (effectOf (.absorb b) s).absorbing } := by
  by_cases h : s.fill = 15#4
  · rw [effectOf_absorb_drain s b h]; rfl
  · rw [effectOf_absorb_stage s b h]; rfl

/-- A cleared state with its zero fields written out. -/
theorem Cleared.eq_zero {s : State} (h : Cleared s) :
    s = { s with st := zeroBytes 48, blk := zeroBytes 16, fill := 0#4, ck := zeroBytes 16 } := by
  obtain ⟨st, blk, fill, ck, _⟩ := s
  obtain ⟨rfl, rfl, rfl, rfl⟩ := h
  rfl

/-- A cleared engine has absorbed the empty message. -/
theorem Cleared.absorbed_nil {s : State} (h : Cleared s) : Absorbed s [] s where
  fill := by simp [h.fill]
  sums := by simp [h.ck, h.st, afterBlocks]
  staged := by simp
  absorbing := by simp
  frame := rfl

namespace Absorbed

variable {s t : State} {m : List Byte}

/-- The next byte stands in the buffer right after the staged bytes. -/
theorem staged_stageByte (h : Absorbed s m t) (b : Byte) (i : Nat) (hi : i < 16) (hle : i ≤ m.length % 16) :
    (m ++ [b])[16 * (m.length / 16) + i]? = some (stageByte t.fill b t.blk)[i] := by
  rw [stageByte_getElem, h.fill]
  by_cases he : i = m.length % 16
  · rw [if_pos he, he, Nat.div_add_mod, List.getElem?_concat_length]
  · rw [if_neg he, List.getElem?_append_left (by omega), h.staged i hi (by omega)]

/-- R83: the byte that fills the buffer makes it the next block of the message. -/
theorem stageByte_eq_blockOf (h : Absorbed s m t) (b : Byte) (hfull : m.length % 16 = 15) :
    stageByte t.fill b t.blk = blockOf (m ++ [b]) (m.length / 16) :=
  (blockOf_eq_of_getElem? fun i hi => h.staged_stageByte b i hi (by omega)).symm

/-- One more ABSORB still writes no other field of `s` than those of `Absorbed.frame`. -/
theorem absorb_frame (h : Absorbed s m t) (b : Byte) :
    effectOf (.absorb b) t =
      { s with
        st := (effectOf (.absorb b) t).st, blk := (effectOf (.absorb b) t).blk, fill := (effectOf (.absorb b) t).fill,
        ck := (effectOf (.absorb b) t).ck, absorbing := (effectOf (.absorb b) t).absorbing } := by
  rw [effectOf_absorb_frame b t, h.frame]

/-- R84: absorbing one more byte drains the buffer if it is now full, and otherwise only stages the byte. -/
theorem absorb (h : Absorbed s m t) (b : Byte) : Absorbed s (m ++ [b]) (effectOf (.absorb b) t) := by
  have hfill := h.fill
  have hsums := h.sums
  have hkept : afterBlocks (m ++ [b]) (m.length / 16) = afterBlocks m (m.length / 16) :=
    afterBlocks_append (Nat.mul_div_le ..) _
  by_cases hf : t.fill = 15#4
  · have hfull : m.length % 16 = 15 := by rw [← hfill, hf]; rfl
    have hmod : (m ++ [b]).length % 16 = 0 := by rw [List.length_append, List.length_singleton]; omega
    have hdiv : (m ++ [b]).length / 16 = m.length / 16 + 1 := by rw [List.length_append, List.length_singleton]; omega
    refine ⟨?_, ?_, fun i _ hi => by omega, by simp, h.absorb_frame b⟩ <;> rw [effectOf_absorb_drain t b hf]
    · rw [hmod]; rfl
    · rw [hdiv, afterBlocks, hkept, ← hsums, ← h.stageByte_eq_blockOf b hfull]
      rfl
  · have hlt : m.length % 16 < 15 := by
      have hne : t.fill.toNat ≠ 15 := fun e => hf (BitVec.eq_of_toNat_eq e)
      omega
    have hmod : (m ++ [b]).length % 16 = m.length % 16 + 1 := by rw [List.length_append, List.length_singleton]; omega
    have hdiv : (m ++ [b]).length / 16 = m.length / 16 := by rw [List.length_append, List.length_singleton]; omega
    refine ⟨?_, ?_, fun i hi hle => ?_, by simp, h.absorb_frame b⟩ <;> rw [effectOf_absorb_stage t b hf]
    · rw [hmod, State.advanceFill_fill, State.absorbByte_fill, BitVec.toNat_add, hfill, BitVec.toNat_ofNat]
      omega
    · rw [hdiv, hkept, ← hsums]
      rfl
    · rw [hdiv]
      exact h.staged_stageByte b i hi (by omega)

/-- R88: the padded buffer is the last block of the padded message. -/
theorem padded_eq_blockOf (h : Absorbed s m t) : padded t.fill t.blk = blockOf (padMessage m) (m.length / 16) := by
  refine (blockOf_eq_of_getElem? fun i hi => ?_).symm
  rw [padded_getElem, h.fill, padMessage]
  by_cases hlt : i < m.length % 16
  · rw [if_pos hlt, List.getElem?_append_left (by omega), h.staged i hi hlt]
  · rw [if_neg hlt, List.getElem?_append_right (by omega), List.getElem?_replicate_of_lt (by omega), padValue, h.fill]

/-- R87: FINALIZE computes the digest of the absorbed message and clears the working state. -/
theorem finalize (h : Absorbed s m t) (hs : Cleared s) :
    effectOf .finalize t = { s with dout := messageDigest m, dvalid := true, absorbing := false } := by
  rw [messageDigest_eq, ← h.sums, ← h.padded_eq_blockOf, h.frame, hs.eq_zero]
  rfl

end Absorbed

/-! ### The words of a message -/

/-- The engine after the ABSORBs of a message. -/
def State.absorbMessage (m : List Byte) (s : State) : State := m.foldl (fun t b => effectOf (.absorb b) t) s

theorem execWords_absorbWords (m : List Byte) (s : State) : execWords (absorbWords m) s = .next (s.absorbMessage m) := by
  simp [execWords_eq, absorbWords, State.absorbMessage, List.foldl_map]

/-- A cleared engine has absorbed every message it is given. -/
theorem Cleared.absorbed {s : State} (h : Cleared s) (m : List Byte) : Absorbed s m (s.absorbMessage m) := by
  induction m using List.reverseRecOn with
  | nil => exact h.absorbed_nil
  | append_singleton m b ih =>
    rw [State.absorbMessage, List.foldl_concat]
    exact ih.absorb b

/-- A sequence of words in two parts (R47). -/
theorem execWords_append (ws ws' : List Word) (s : State) :
    execWords (ws ++ ws') s = andThen (execWords ws s) (execWords ws') := by
  simp [execWords_eq]

/-- Settles O41: the ABSORBs leave the message absorbed, and FINALIZE then computes its digest (`Absorbed.finalize`). -/
theorem digestOfEveryMessage : Obligations.DigestOfEveryMessage := by
  intro s m hs
  calc execWords (absorbWords m ++ [encode .finalize]) s
      = execWords [encode .finalize] (s.absorbMessage m) := by
        rw [execWords_append, execWords_absorbWords, andThen_next]
    _ = .next (effectOf .finalize (s.absorbMessage m)) := by
        rw [execWords_eq, List.foldl_cons, List.foldl_nil, effectOfWord_encode]
    _ = _ := by rw [(hs.absorbed m).finalize hs]

/-- Settles O42: the framing holds of the empty message and every ABSORB keeps it (`Absorbed.absorb`). -/
theorem blockFraming : Obligations.BlockFraming := by
  intro s m hs
  obtain ⟨hfill, hsums, hstaged, habsorbing, hframe⟩ := hs.absorbed m
  exact ⟨_, execWords_absorbWords m s, hfill, hsums, hstaged, habsorbing, by rw [hframe], by rw [hframe],
    by rw [hframe]⟩

end Sys2Proof.Machine
end

section
/-! SUPPORT. What a host's send, wait and reads do: the pending command completes with its effect, and nothing else happens
but the new acceptance (20_memory R42, R47, R48; 30_encoding R57, R65). -/

namespace Sys2Proof.Machine

/-! ### Reads -/

theorem finalizePending_eq_true_iff (s : State) :
    s.finalizePending = true ↔ ∃ w, s.pend = some w ∧ decode w = .instr .finalize := by
  unfold State.finalizePending
  split <;> simp_all

/-- R42: with no FINALIZE pending the byte is `DOUT`'s, and the read changes nothing. -/
theorem readDout_of_not_finalizePending {s : State} (h : s.finalizePending = false) (sel : BitVec 4) :
    readDout sel s = (s.dout[sel.toNat]'sel.isLt, s) := by
  simp [readDout, h]

/-- Settles O21: the two cases are whether a FINALIZE is pending. -/
theorem digestReadPort : Obligations.DigestReadPort := by
  intro sel s
  refine ⟨fun w hp hd => ?_, fun h => ?_⟩
  · have hfin : s.finalizePending = true := (finalizePending_eq_true_iff s).mpr ⟨w, hp, hd⟩
    simp [readDout, hfin]
  · have hfin : s.finalizePending = false := by
      rw [Bool.eq_false_iff, Ne, finalizePending_eq_true_iff]
      exact fun ⟨w, hp, hd⟩ => h w hp hd
    simp only [readDout_of_not_finalizePending hfin, and_self]

/-- Settles O22: a read moves at most the model's count of draws. -/
theorem readsHaveNoSideEffect : Obligations.ReadsHaveNoSideEffect :=
  fun sel s => ⟨⟨_, readStatus_snd s⟩, ⟨_, readDout_snd sel s⟩⟩

/-- R25, R26: the bit a host polls is `BUSY`. -/
theorem readStatus_getLsbD_zero (s : State) : (readStatus s).1.getLsbD 0 = s.busy := statusByte_getLsbD_zero _ s

/-! ### One edge driven by the host -/

theorem drive_accept {p : Pins} {s : State} (hr : p.rst = false) (hp : s.pend = none) (hv : p.cmdValid = true) :
    drive p s = .next (s.accept p.cmdWord) :=
  step_accept (s := s.withInputs (p :: s.inputs)) hr hp hv

theorem drive_wait {p : Pins} {s : State} {w : Word} {n : Nat} (hr : p.rst = false) (hp : s.pend = some w)
    (hl : s.latLeft = n + 1) : drive p s = .next (s.waitEdge n) :=
  step_wait (s := s.withInputs (p :: s.inputs)) hr hp hl

theorem drive_complete {p : Pins} {s : State} {w : Word} (hr : p.rst = false) (hp : s.pend = some w)
    (hl : s.latLeft = 0) : drive p s = .next (effectOfWord w s).clearPend :=
  step_complete (s := s.withInputs (p :: s.inputs)) hr hp hl

/-! ### Pending word, wait and draws -/

/-- The state with another pending word, wait and count of draws: all that an edge without a completion can change. -/
def State.withWait (p : Option Word) (n d : Nat) (s : State) : State := { s with pend := p, latLeft := n, draws := d }

@[simp] theorem withWait_withWait (p p' : Option Word) (n n' d d' : Nat) (s : State) :
    (s.withWait p n d).withWait p' n' d' = s.withWait p' n' d' := rfl

theorem waitEdge_eq_withWait (n : Nat) (s : State) : s.waitEdge n = s.withWait s.pend n s.draws := rfl

theorem accept_eq_withWait (w : Word) (s : State) :
    s.accept w = s.withWait (some w) (s.accept w).latLeft (s.draws + 1) := rfl

theorem countDraw_eq_withWait (s : State) : s.countDraw = s.withWait s.pend s.latLeft (s.draws + 1) := rfl

theorem clearPend_eq_withWait (s : State) : s.clearPend = s.withWait none s.latLeft s.draws := rfl

/-- A word's effect reads none of the three. -/
@[simp] theorem effectOfWord_withWait (w : Word) (s : State) (p : Option Word) (n d : Nat) :
    effectOfWord w (s.withWait p n d) = (effectOfWord w s).withWait p n d := by
  obtain ⟨-, -, -, hinputs⟩ := effectOfWord_outside w s
  calc effectOfWord w (s.withWait p n d)
      = { effectOfWord w s with pend := p, latLeft := n, draws := d, inputs := s.inputs } :=
        effectOfWord_withOutside w s p n d s.inputs
    _ = (effectOfWord w s).withWait p n d := by rw [← hinputs]; rfl

/-! ### Sending -/

theorem sendWord_of_busy (w : Word) (k : Nat) {s : State} {w₀ : Word} (hp : s.pend = some w₀) :
    sendWord w (k + 1) s = andThen (drive (Pins.offer w) s) (sendWord w k) := by
  simp [sendWord, State.busy, hp]

/-- R57: a ready engine accepts the word at the first edge. -/
theorem sendWord_of_idle (w : Word) (k : Nat) {s : State} (hp : s.pend = none) :
    sendWord w k s = .next (s.accept w) := by
  cases k <;> simp [sendWord, State.busy, hp, drive_accept, Pins.offer]

/-- R57, R120: the held word is accepted at the edge after the one that completes the pending command. -/
theorem sendWord_of_pending (w : Word) {w₀ : Word} {s : State} (hp : s.pend = some w₀) :
    ∃ n d, sendWord w (s.latLeft + 1) s = .next ((effectOfWord w₀ s).withWait (some w) n d) := by
  induction hl : s.latLeft generalizing s with
  | zero =>
    rw [sendWord_of_busy w _ hp, drive_complete rfl hp hl, andThen_next, sendWord_of_idle w _ rfl]
    exact ⟨_, _, rfl⟩
  | succ n ih =>
    rw [sendWord_of_busy w _ hp, drive_wait rfl hp hl, andThen_next]
    obtain ⟨m, d, h⟩ := ih (s := s.waitEdge n) hp rfl
    exact ⟨m, d, by rw [h, waitEdge_eq_withWait, effectOfWord_withWait, withWait_withWait]⟩

/-- Settles O51: `sendWord_of_idle` and `sendWord_of_pending` are its two clauses. -/
theorem sentWordIsAccepted : Obligations.SentWordIsAccepted := by
  intro h w
  cases hp : h.engine.pend with
  | none =>
    refine ⟨{ h with engine := h.engine.accept w }, ?_, rfl, fun _ => ⟨_, _, accept_eq_withWait ..⟩, nofun⟩
    simp only [HostAction.run, sendWord_of_idle w _ hp, andThen_next]
  | some w₀ =>
    obtain ⟨n, d, hs⟩ := sendWord_of_pending w hp
    refine ⟨{ h with engine := (effectOfWord w₀ h.engine).withWait (some w) n d }, ?_, rfl, nofun, fun w₁ hw => ?_⟩
    · simp only [HostAction.run, hs, andThen_next]
    · cases hw
      exact ⟨_, n, d, execWord_eq w₀ h.engine, rfl⟩

/-! ### Waiting -/

theorem readStatus_of_idle {s : State} (hp : s.pend = none) : (readStatus s).2 = s := by
  simp [readStatus, State.busy, hp]

theorem waitIdle_of_idle (k : Nat) {s : State} (hp : s.pend = none) : waitIdle k s = .next s := by
  cases k with
  | zero => rfl
  | succ k =>
    have hbit : (readStatus s).1.getLsbD 0 = false := (readStatus_getLsbD_zero s).trans (by simp [State.busy, hp])
    simp only [waitIdle, hbit, readStatus_of_idle hp, Bool.false_eq_true, if_false]

theorem waitIdle_of_busy (k : Nat) {s : State} {w : Word} (hp : s.pend = some w) :
    waitIdle (k + 1) s = andThen (drive Pins.idle s.countDraw) (waitIdle k) := by
  have hbusy : s.busy = true := by simp [State.busy, hp]
  have hbit : (readStatus s).1.getLsbD 0 = true := (readStatus_getLsbD_zero s).trans hbusy
  have hread : (readStatus s).2 = s.countDraw := if_pos hbusy
  simp only [waitIdle, hbit, hread, if_true]

/-- R65: polling lets the pending command wait and complete, and draws a free value at every busy read. -/
theorem waitIdle_of_pending {w : Word} {s : State} (hp : s.pend = some w) :
    ∃ d, waitIdle (s.latLeft + 2) s = .next ((effectOfWord w s).withWait none 0 d) := by
  induction hl : s.latLeft generalizing s with
  | zero =>
    refine ⟨s.draws + 1, ?_⟩
    rw [waitIdle_of_busy _ hp, drive_complete (s := s.countDraw) rfl hp hl, andThen_next, waitIdle_of_idle _ rfl,
      countDraw_eq_withWait, effectOfWord_withWait, hl]
    rfl
  | succ n ih =>
    rw [waitIdle_of_busy _ hp, drive_wait (s := s.countDraw) rfl hp hl, andThen_next]
    obtain ⟨d, h⟩ := ih (s := s.countDraw.waitEdge n) hp rfl
    exact ⟨d, by rw [h, waitEdge_eq_withWait, countDraw_eq_withWait]; simp⟩

/-- Settles O50: `waitIdle_of_idle` and `waitIdle_of_pending` are its two clauses. -/
theorem waitEndsWithTheCommandDone : Obligations.WaitEndsWithTheCommandDone := by
  intro h
  cases hp : h.engine.pend with
  | none =>
    refine ⟨h, ?_, by simp [HostState.ended, State.busy, hp], rfl, fun _ => rfl, nofun⟩
    simp only [HostAction.run, waitIdle_of_idle _ hp, andThen_next]
  | some w =>
    obtain ⟨d, hs⟩ := waitIdle_of_pending hp
    refine ⟨{ h with engine := (effectOfWord w h.engine).withWait none 0 d }, ?_, rfl, rfl, nofun, fun w₁ hw => ?_⟩
    · simp only [HostAction.run, hs, andThen_next]
    · cases hw
      exact ⟨_, d, execWord_eq w h.engine, rfl⟩

end Sys2Proof.Machine
end

section
/-! SUPPORT. Whole host programs: what the words a host sends, its wait and its reads of the digest come to
(30_encoding R65, R66; 20_memory R42, R44). -/

namespace Sys2Proof.Machine

/-! ### The settled engine -/

/-- The engine as it is once the pending command has completed, with the model's own wait and count of draws set to 0. -/
def State.settled (s : State) : State :=
  match s.pend with
  | some w => (effectOfWord w s).withWait none 0 0
  | none => s.withWait none 0 0

theorem settled_of_idle {s : State} (hp : s.pend = none) : s.settled = s.withWait none 0 0 := by
  simp [State.settled, hp]

theorem settled_of_pending {s : State} {w : Word} (hp : s.pend = some w) :
    s.settled = (effectOfWord w s).withWait none 0 0 := by
  simp [State.settled, hp]

@[simp] theorem settled_withWait_none (s : State) (n d : Nat) : (s.withWait none n d).settled = s.withWait none 0 0 := rfl

@[simp] theorem settled_withWait_some (s : State) (w : Word) (n d : Nat) :
    (s.withWait (some w) n d).settled = (effectOfWord w s).withWait none 0 0 := by
  rw [settled_of_pending rfl, effectOfWord_withWait, withWait_withWait]

/-- An idle engine is its settled state, but for the model's own two fields. -/
theorem eq_settled_of_idle {s : State} (hp : s.pend = none) : s = s.settled.withWait none s.latLeft s.draws := by
  rw [settled_of_idle hp, withWait_withWait, ← hp]
  rfl

/-- A sent word takes its effect after the command before it (20_memory R47). -/
theorem run_send_settled (w : Word) (h : HostState) :
    ∃ h', HostAction.run (.send w) h = .next h' ∧ h'.reads = h.reads ∧
      h'.engine.settled = effectOfWord w h.engine.settled := by
  obtain ⟨h', hrun, hreads, hidle, hpending⟩ := sentWordIsAccepted h w
  refine ⟨h', hrun, hreads, ?_⟩
  cases hp : h.engine.pend with
  | none =>
    obtain ⟨n, d, he⟩ := hidle hp
    have he : h'.engine = h.engine.withWait (some w) n d := he
    rw [he, settled_withWait_some, settled_of_idle hp, effectOfWord_withWait]
  | some w₀ =>
    obtain ⟨u, n, d, hu, he⟩ := hpending w₀ hp
    rw [execWord_eq] at hu
    cases hu
    have he : h'.engine = (effectOfWord w₀ h.engine).withWait (some w) n d := he
    rw [he, settled_withWait_some, settled_of_pending hp, effectOfWord_withWait]

/-- After a wait the engine is idle and already settled. -/
theorem run_wait_settled (h : HostState) :
    ∃ h', HostAction.run .wait h = .next h' ∧ h'.reads = h.reads ∧ h'.engine.pend = none ∧
      h'.engine.settled = h.engine.settled := by
  obtain ⟨h', hrun, -, hreads, hidle, hpending⟩ := waitEndsWithTheCommandDone h
  refine ⟨h', hrun, hreads, ?_⟩
  cases hp : h.engine.pend with
  | none => rw [hidle hp]; exact ⟨hp, rfl⟩
  | some w =>
    obtain ⟨u, d, hu, he⟩ := hpending w hp
    rw [execWord_eq] at hu
    cases hu
    have he : h'.engine = (effectOfWord w h.engine).withWait none 0 d := he
    rw [he, settled_withWait_none, settled_of_pending hp]
    exact ⟨rfl, rfl⟩

/-! ### Programs -/

theorem runHost_append (as bs : List HostAction) (h : HostState) :
    runHost (as ++ bs) h = andThen (runHost as h) (runHost bs) := by
  induction as generalizing h with
  | nil => rfl
  | cons a as ih => rw [List.cons_append, runHost, runHost, andThen_assoc, funext ih]

/-- Sent words come to `execWords`, whatever the latencies are. -/
theorem runHost_sends (ws : List Word) (h : HostState) :
    ∃ h', runHost (ws.map .send) h = .next h' ∧ h'.reads = h.reads ∧
      execWords ws h.engine.settled = .next h'.engine.settled := by
  induction ws generalizing h with
  | nil => exact ⟨h, rfl, rfl, rfl⟩
  | cons w ws ih =>
    obtain ⟨h₁, hrun₁, hreads₁, hsettled₁⟩ := run_send_settled w h
    obtain ⟨h₂, hrun₂, hreads₂, hsettled₂⟩ := ih h₁
    refine ⟨h₂, ?_, hreads₂.trans hreads₁, ?_⟩
    · rw [List.map_cons, runHost, hrun₁, andThen_next, hrun₂]
    · rw [execWords, execWord_eq, andThen_next, ← hsettled₁, hsettled₂]

/-- R66: `READDIGEST` of an idle engine reads `DOUT` in order and changes nothing. -/
theorem runHost_reads (first : Nat) {ks : List Nat} (hks : ∀ k ∈ ks, k < 16) {h : HostState}
    (hp : h.engine.pend = none) :
    runHost (ks.map fun k => .read (first + k) (BitVec.ofNat 4 k)) h =
      .next { h with reads := h.reads ++ ks.map fun k => (first + k, h.engine.dout.toList.getD k 0) } := by
  induction ks generalizing h with
  | nil => simp [runHost]
  | cons k ks ih =>
    have hk : k < 16 := hks k List.mem_cons_self
    have hfin : h.engine.finalizePending = false := by simp [State.finalizePending, hp]
    have hread : HostAction.run (.read (first + k) (BitVec.ofNat 4 k)) h =
        .next { h with reads := h.reads ++ [(first + k, h.engine.dout.toList.getD k 0)] } := by
      simp [HostAction.run, readDout_of_not_finalizePending hfin, List.getD, Nat.mod_eq_of_lt hk, hk]
    rw [List.map_cons, runHost, hread, andThen_next,
      ih (h := { h with reads := h.reads ++ _ }) (fun j hj => hks j (List.mem_cons_of_mem k hj)) hp]
    simp

/-- R66: `DIGEST` hashes its message and waits for the result. -/
theorem runHost_digest (m : List Byte) {h : HostState} (hp : h.engine.pend = none) (hc : Cleared h.engine) :
    ∃ n d, runHost (absorbActions m ++ [.send (encode .finalize), .wait]) h =
      .next { h with
        engine := { h.engine with
          dout := messageDigest m, dvalid := true, absorbing := false, pend := none, latLeft := n, draws := d } } := by
  have hactions : absorbActions m ++ [.send (encode .finalize), .wait] =
      (absorbWords m ++ [encode .finalize]).map .send ++ [.wait] := by simp [absorbActions, absorbWords]
  obtain ⟨h₁, hrun₁, hreads₁, hsettled₁⟩ := runHost_sends (absorbWords m ++ [encode .finalize]) h
  obtain ⟨h₂, hrun₂, hreads₂, hp₂, hsettled₂⟩ := run_wait_settled h₁
  have hcleared : Cleared h.engine.settled := by
    rw [settled_of_idle hp]
    exact hc.congr ⟨rfl, rfl, rfl, rfl⟩
  rw [digestOfEveryMessage _ m hcleared, Host.Outcome.next.injEq, ← hsettled₂, settled_of_idle hp] at hsettled₁
  refine ⟨h₂.engine.latLeft, h₂.engine.draws, ?_⟩
  calc runHost (absorbActions m ++ [.send (encode .finalize), .wait]) h
      = .next h₂ := by rw [hactions, runHost_append, hrun₁, andThen_next, runHost, hrun₂, andThen_next, runHost]
    _ = .next { h with engine := h₂.engine.settled.withWait none h₂.engine.latLeft h₂.engine.draws } := by
        rw [← eq_settled_of_idle hp₂, ← hreads₁, ← hreads₂]
    _ = _ := by rw [← hsettled₁]; rfl

/-- Settles O52: `DIGEST` leaves the digest in `DOUT` of an idle engine (`runHost_digest`) and `READDIGEST` reads it. -/
theorem digestStatementReadsTheDigest : Obligations.DigestStatementReadsTheDigest := by
  intro h bs first hp hc
  obtain ⟨n, d, hrun⟩ := runHost_digest (bs.map Imm8.value) hp hc
  have hassemble : assemble [.digest bs, .readDigest first] =
      (absorbActions (bs.map Imm8.value) ++ [.send (encode .finalize), .wait]) ++
        (List.range 16).map fun k => .read (first + k) (BitVec.ofNat 4 k) := by
    simp [assemble, AsmStmt.expand]
  rw [hassemble, runHost_append, hrun, andThen_next,
    runHost_reads first (fun k hk => List.mem_range.mp hk) rfl]
  exact ⟨_, rfl, rfl, rfl, rfl, rfl, hc.congr ⟨rfl, rfl, rfl, rfl⟩⟩

end Sys2Proof.Machine
end

section
/-! SUPPORT. The words of the commands and the rows of the opcode map (30_encoding R56 to R61). -/

namespace Sys2Proof

/-! ### Legal and illegal words -/

theorem instr?_eq_some_iff {c : Command} {i : Instr} : c.instr? = some i ↔ c = .instr i := by
  cases c <;> simp [Command.instr?]

theorem instr?_eq_none_iff {c : Command} : c.instr? = none ↔ ∃ why w, c = .illegal why w := by
  cases c <;> simp [Command.instr?]

/-- A word that decodes to a command is the command's one word (R59, R60). -/
theorem eq_encode_of_decode {w : Word} {i : Instr} (h : decode w = .instr i) : w = encode i := by
  rw [word_eq_fields w]
  rcases decode_cases w with ⟨hop, e⟩ | ⟨hop, hdata, e⟩ | ⟨hop, hdata, e⟩ | ⟨-, -, e⟩ | ⟨-, -, -, e⟩ <;>
    rw [e] at h <;> cases h
  · rw [hop]; rfl
  · rw [hop, hdata]; rfl
  · rw [hop, hdata]; rfl

/-- Settles O2: `decode_encode` and `eq_encode_of_decode` are its two directions. -/
theorem decodeEncodeRoundTrip : Obligations.DecodeEncodeRoundTrip :=
  ⟨decode_encode, fun _ _ => eq_encode_of_decode⟩

theorem decode_eq_instr_iff {w : Word} {i : Instr} : decode w = .instr i ↔ w = encode i :=
  ⟨eq_encode_of_decode, fun h => h ▸ decode_encode i⟩

/-- A word decodes to an ABSORB when its `OP` is 0x01, whatever its `DATA` is (R58). -/
theorem decode_eq_absorb_iff {w : Word} : decode w = .instr (.absorb (dataField w)) ↔ opField w = 0x01#8 := by
  constructor <;> intro h
  · rw [eq_encode_of_decode h]
    exact opField_append _ _
  · rw [decode, if_pos h]

/-- Settles O1: the sixteen-bit words are literals. -/
theorem specWordsDecode : Obligations.SpecWordsDecode := by
  unfold Obligations.SpecWordsDecode
  decide

/-! ### The rows of the opcode map -/

/-- A row that masks `DATA` away selects by `OP`. -/
theorem selects_opcode_iff (name : String) (op : Byte) (w : Word) :
    OpcodeRow.selects ⟨name, op ++ 0x00#8, 0xFF00⟩ w = true ↔ opField w = op := by
  have hmask : w &&& 0xFF00#16 = opField w ++ 0x00#8 := by
    calc w &&& 0xFF00#16 = (opField w ++ dataField w) &&& (0xFF#8 ++ 0x00#8) := by rw [← word_eq_fields w]; rfl
      _ = opField w ++ 0x00#8 := by
        rw [BitVec.and_append, BitVec.and_zero]
        congr 1
        exact BitVec.and_allOnes
  have hinj : opField w ++ 0x00#8 = op ++ 0x00#8 ↔ opField w = op :=
    ⟨fun h => by simpa using congrArg opField h, fun h => by rw [h]⟩
  rw [OpcodeRow.selects, beq_iff_eq, ← hinj, ← hmask]
  rfl

/-- A row that masks nothing away selects its one word. -/
theorem selects_word_iff (name : String) (pattern w : Word) :
    OpcodeRow.selects ⟨name, pattern, 0xFFFF⟩ w = true ↔ w = pattern := by
  have hmask : w &&& 0xFFFF#16 = w := BitVec.and_allOnes
  rw [OpcodeRow.selects, beq_iff_eq]
  exact ⟨fun h => hmask.symm.trans h, fun h => hmask.trans h⟩

theorem absorbRow_selects_iff (w : Word) :
    OpcodeRow.selects ⟨"ABSORB", 0x0100, 0xFF00⟩ w = true ↔ decode w = .instr (.absorb (dataField w)) :=
  (selects_opcode_iff "ABSORB" 0x01#8 w).trans decode_eq_absorb_iff.symm

theorem finalizeRow_selects_iff (w : Word) :
    OpcodeRow.selects ⟨"FINALIZE", 0x0200, 0xFFFF⟩ w = true ↔ decode w = .instr .finalize :=
  (selects_word_iff "FINALIZE" (encode .finalize) w).trans decode_eq_instr_iff.symm

theorem resetRow_selects_iff (w : Word) :
    OpcodeRow.selects ⟨"RESET", 0x0300, 0xFFFF⟩ w = true ↔ decode w = .instr .reset :=
  (selects_word_iff "RESET" (encode .reset) w).trans decode_eq_instr_iff.symm

theorem opcodeMap_eq :
    opcodeMap = [⟨"ABSORB", 0x0100, 0xFF00⟩, ⟨"FINALIZE", 0x0200, 0xFFFF⟩, ⟨"RESET", 0x0300, 0xFFFF⟩] := rfl

/-- R61: a word is illegal when it matches no row. -/
theorem instr?_eq_none_iff_no_row (w : Word) :
    (decode w).instr? = none ↔ ∀ r ∈ opcodeMap, r.selects w = false := by
  simp only [opcodeMap_eq, List.forall_mem_cons, ← Bool.not_eq_true]
  rw [absorbRow_selects_iff, finalizeRow_selects_iff, resetRow_selects_iff]
  constructor
  · intro h
    obtain ⟨why, w', hd⟩ := instr?_eq_none_iff.mp h
    simp [hd]
  · rintro ⟨ha, hf, hr, -⟩
    rcases decode_cases w with ⟨-, e⟩ | ⟨-, -, e⟩ | ⟨-, -, e⟩ | ⟨-, -, e⟩ | ⟨-, -, -, e⟩
    · exact absurd e ha
    · exact absurd e hf
    · exact absurd e hr
    · rw [e]; rfl
    · rw [e]; rfl

/-- A command's word selects one row (R59). -/
theorem length_rows_encode (i : Instr) : (opcodeMap.filter fun r => r.selects (encode i)).length = 1 := by
  have hrows : Laws.EncodeSelectsRow.Statement i := by
    cases i with
    | absorb b => exact Laws.EncodeSelectsRow.absorb b
    | finalize => exact Laws.EncodeSelectsRow.finalize
    | reset => exact Laws.EncodeSelectsRow.reset
  simpa using congrArg List.length hrows.2

/-- R59: a legal word selects the row of its command and no other, and an illegal word selects none. -/
theorem length_rows_le_one (w : Word) : (opcodeMap.filter fun r => r.selects w).length ≤ 1 := by
  cases hd : (decode w).instr? with
  | none =>
    have hnone := (instr?_eq_none_iff_no_row w).mp hd
    rw [List.filter_eq_nil_iff.mpr fun r hr => by simp [hnone r hr]]
    exact Nat.zero_le 1
  | some i => rw [eq_encode_of_decode (instr?_eq_some_iff.mp hd), length_rows_encode]

theorem opField_toNat (w : Word) : (opField w).toNat = w.toNat / 256 := by
  have := w.isLt
  rw [opField, BitVec.extractLsb'_toNat, Nat.shiftRight_eq_div_pow]
  omega

/-- Settles O3: each row by the command it selects (`absorbRow_selects_iff` and its like), `length_rows_le_one` last. -/
theorem opcodeMapSelectsTheDecodedRow : Obligations.OpcodeMapSelectsTheDecodedRow := by
  intro w
  refine ⟨absorbRow_selects_iff w, ?_, finalizeRow_selects_iff w, selects_word_iff _ _ w, resetRow_selects_iff w,
    selects_word_iff _ _ w, opcodeMap_eq, length_rows_le_one w⟩
  rw [absorbRow_selects_iff, decode_eq_absorb_iff, ← BitVec.toNat_inj, opField_toNat, BitVec.toNat_ofNat]
  omega

/-! ### Counting words -/

/-- Every command: FINALIZE, RESET and an ABSORB of each byte. -/
def allCommands : Finset Instr := insert .finalize (insert .reset (Finset.univ.image .absorb))

theorem mem_allCommands (i : Instr) : i ∈ allCommands := by
  cases i <;> simp [allCommands]

theorem card_univ_bitVec (n : Nat) : (Finset.univ : Finset (BitVec n)).card = 2 ^ n :=
  FinEnum.card_eq_fintypeCard.symm

theorem card_allCommands : allCommands.card = 258 := by
  have habsorb : (Finset.univ.image Instr.absorb).card = 256 := by
    rw [Finset.card_image_of_injective _ fun a b h => by cases h; rfl]
    exact card_univ_bitVec 8
  rw [allCommands, Finset.card_insert_of_notMem (by simp), Finset.card_insert_of_notMem (by simp), habsorb]

theorem encode_injective : Function.Injective encode := fun i j h => by
  simpa using (decode_encode i).symm.trans ((congrArg decode h).trans (decode_encode j))

/-- The legal words are the words of the commands. -/
theorem legalWords_eq_image :
    (Finset.univ.filter fun w : Word => (decode w).instr? ≠ none) = allCommands.image encode := by
  ext w
  simp only [Finset.mem_filter, Finset.mem_univ, true_and, Finset.mem_image, Option.ne_none_iff_exists',
    instr?_eq_some_iff, decode_eq_instr_iff, mem_allCommands]
  exact exists_congr fun i => eq_comm

theorem card_legalWords : (Finset.univ.filter fun w : Word => (decode w).instr? ≠ none).card = 258 := by
  rw [legalWords_eq_image, Finset.card_image_of_injective _ encode_injective, card_allCommands]

/-- Where a function into an option type has a value at `m` of `m + n` points, it has none at `n`. Both numbers are variables
here so that no check of the sum evaluates a count over all words. -/
theorem card_filter_eq_none {α β : Type} [Fintype α] (f : α → Option β) {m n : Nat}
    (hall : (Finset.univ : Finset α).card = m + n) (hsome : (Finset.univ.filter fun a => f a ≠ none).card = m) :
    (Finset.univ.filter fun a => f a = none).card = n := by
  have hsum : (Finset.univ.filter fun a => f a = none).card + (Finset.univ.filter fun a => f a ≠ none).card = m + n :=
    (Finset.card_filter_add_card_filter_not _).trans hall
  omega

/-- R61: the illegal words are the rest of the 2^16 words. -/
theorem card_illegalWords : (Finset.univ.filter fun w : Word => (decode w).instr? = none).card = 65278 :=
  card_filter_eq_none _ (card_univ_bitVec 16) card_legalWords

/-- R61: the field pairs of the illegal words. -/
theorem instr?_eq_none_iff_fields (w : Word) :
    (decode w).instr? = none ↔
      (opField w).toNat = 0 ∨ 4 ≤ (opField w).toNat ∨
        (((opField w).toNat = 2 ∨ (opField w).toNat = 3) ∧ dataField w ≠ 0x00#8) := by
  have hop := (opField w).isLt
  have hdata := (dataField w).isLt
  rw [← Option.not_isSome_iff_eq_none, decode_legal_iff_fields, Ne, ← BitVec.toNat_inj, BitVec.toNat_ofNat]
  simp [Fields.wellFormed, Fields.fits, Fields.opcodeKnown, Fields.reservedZero]
  omega

namespace Machine

/-- R102: the completion of an illegal word sets `ERR` and ends the word. -/
theorem complete_of_illegal {w : Word} (h : (decode w).instr? = none) (s : State) :
    complete w s = .next { s with err := true, pend := none } := by
  obtain ⟨why, w', hd⟩ := instr?_eq_none_iff.mp h
  rw [complete_eq, effectOfWord_of_illegal hd]
  rfl

/-- Settles O4: the rows, the fields, the effect and the two counts, a lemma each. -/
theorem illegalWordsAndTheirEffect : Obligations.IllegalWordsAndTheirEffect :=
  ⟨instr?_eq_none_iff_no_row, instr?_eq_none_iff_fields, fun _ s h => complete_of_illegal h s, card_legalWords,
    card_illegalWords⟩

end Machine
end Sys2Proof
end

section
/-! SUPPORT. Every clock edge is a move of the spec's step relation, and what the edges of a busy engine do
(30_encoding R57, R63, R64; 60_exceptions R102, R104). -/

namespace Sys2Proof.Machine

/-! ### The moves -/

variable (s : State) (ps : List Pins)

/-- A command's effect does not depend on the pins to come. -/
theorem effectOfWord_withInputs (w : Word) : effectOfWord w (s.withInputs ps) = (effectOfWord w s).withInputs ps := by
  obtain ⟨hpend, hlat, hdraws, -⟩ := effectOfWord_outside w s
  calc effectOfWord w (s.withInputs ps)
      = { effectOfWord w s with pend := s.pend, latLeft := s.latLeft, draws := s.draws, inputs := ps } :=
        effectOfWord_withOutside w s s.pend s.latLeft s.draws ps
    _ = (effectOfWord w s).withInputs ps := by rw [← hpend, ← hlat, ← hdraws]; rfl

theorem hardReset_effect : Move.effect .hardReset s (s.withInputs ps).hardReset := ⟨rfl, rfl⟩

theorem accept_effect (w : Word) : Move.effect (.accept w) s ((s.withInputs ps).accept w) := rfl

theorem complete_effect {w : Word} (hp : s.pend = some w) :
    Move.effect .complete s (effectOfWord w (s.withInputs ps)).clearPend := by
  obtain ⟨-, hlat, hdraws, hinputs⟩ := effectOfWord_outside w s
  refine ⟨w, effectOfWord w s, hp, execWord_eq w s, ?_⟩
  rw [effectOfWord_withInputs, ← hlat, ← hdraws, ← hinputs]
  rfl

theorem waitEdge_effect (n : Nat) : Move.effect .stay s ((s.withInputs ps).waitEdge n) := rfl

theorem idleEdge_effect : Move.effect .stay s (s.withInputs ps) := rfl

variable {s}

/-- R64, R104: an edge is HardReset where `rst` is asserted, and otherwise Complete, Accept of the word offered, or no move. -/
theorem step_move {t : State} (h : step s = .next t) :
    ∃ m : Move, m.enabled s ∧ m.effect s t ∧ (m = .hardReset ↔ s.pins.rst = true) ∧
      (∀ w, m = .accept w → s.pins.cmdValid = true ∧ s.pins.cmdWord = w) := by
  rcases step_cases h with ⟨hr, rfl⟩ | ⟨hr, w, hp, -, rfl⟩ | ⟨hr, w, n, -, -, rfl⟩ | ⟨hr, hp, hv, rfl⟩ | ⟨hr, -, -, rfl⟩
  · exact ⟨.hardReset, trivial, hardReset_effect s _, by simp [hr], nofun⟩
  · exact ⟨.complete, by simp [Move.enabled, hp], complete_effect s _ hp, by simp [hr], nofun⟩
  · exact ⟨.stay, trivial, waitEdge_effect s _ n, by simp [hr], nofun⟩
  · exact ⟨.accept _, hp, accept_effect s _ _, by simp [hr], fun w hw => ⟨hv, Move.accept.inj hw⟩⟩
  · exact ⟨.stay, trivial, idleEdge_effect s _, by simp [hr], nofun⟩

/-- Settles O35: `step_move` names the move of each edge, and pins that assert `rst`, offer the word or are idle make each
move happen. -/
theorem stepsAreTheMovesOfTheSpec : Obligations.StepsAreTheMovesOfTheSpec := by
  refine ⟨fun _ _ => step_move, fun s => ?_, fun s w hp => ?_, fun s hp hl => ?_⟩
  · exact ⟨[Pins.assertRst], _, step_hardReset rfl, hardReset_effect s _⟩
  · exact ⟨[Pins.offer w], _, step_accept rfl hp rfl, accept_effect s _ w⟩
  · obtain ⟨w, hw⟩ := Option.isSome_iff_exists.mp hp
    exact ⟨[], _, step_complete rfl hw hl, complete_effect s _ hw⟩

/-- R100: a clock edge answers a next state. -/
theorem exists_clockEdge_eq_next (p : Pins) (s : State) : ∃ t, clockEdge p s = .next t := by
  rcases clockEdge_cases p s with ⟨-, e⟩ | ⟨-, _, -, -, e⟩ | ⟨-, _, _, -, -, e⟩ | ⟨-, -, -, e⟩ | ⟨-, -, -, e⟩ <;>
    exact ⟨_, e⟩

/-- Settles O38: `exec_eq`, `complete_eq` and the cases of the clock edge all answer a next state. -/
theorem everyStepGoesOn : Obligations.EveryStepGoesOn :=
  ⟨fun s => exists_clockEdge_eq_next s.pins s.takePins, fun i s => ⟨_, exec_eq i s⟩, fun w s => ⟨_, complete_eq w s⟩⟩

/-! ### The edges one by one -/

/-- R63, R64: a due word that decodes to a command runs it and is no longer pending. -/
theorem step_of_due_instr {w : Word} {i : Instr} (hp : s.pend = some w) (hl : s.latLeft = 0) (hr : s.pins.rst = false)
    (hd : decode w = .instr i) : step s = andThen (exec i s.takePins) fun t => .next t.clearPend := by
  rw [step_complete hr hp hl, effectOfWord_of_instr hd, exec_eq, andThen_next]

/-- Settles O13: its second clause is the first for the state in which the table word is pending and due. -/
theorem stepRunsDecodedCommand : Obligations.StepRunsDecodedCommand := by
  refine ⟨fun s w i => step_of_due_instr, fun s w i h => ?_⟩
  have hd : decode (tableWord 16 w) = .instr i := instr?_eq_some_iff.mp h
  have hword : tableWord 16 w = BitVec.ofNat 16 w := BitVec.eq_of_toNat_eq (by simp [tableWord])
  rw [← hword]
  exact step_of_due_instr (s := s.withFetchWord 16 w) rfl rfl rfl hd

/-- Settles O14: the due word completes, and an illegal word's effect is `ERR ← 1`. -/
theorem stepRaisesIllegalCommand : Obligations.StepRaisesIllegalCommand := by
  intro s w hp hl hr h
  obtain ⟨why, w', hd⟩ := instr?_eq_none_iff.mp h
  rw [step_complete hr hp hl, effectOfWord_of_illegal hd]
  rfl

/-- Settles O17: `drive_accept`, at the edge with the host's pins at `p`. -/
theorem acceptanceEdge : Obligations.AcceptanceEdge :=
  fun _ _ hp hr hv => drive_accept hr hp hv

/-- Settles O18: while the pending word waits an edge only counts, and at its due edge it completes, whatever is offered. -/
theorem backPressure : Obligations.BackPressure := by
  intro p q s w hp hpr hqr
  refine ⟨?_, fun n hl => drive_wait hpr hp hl⟩
  show drive p s = drive q s
  cases hl : s.latLeft with
  | zero => rw [drive_complete hpr hp hl, drive_complete hqr hp hl]
  | succ n => rw [drive_wait hpr hp hl, drive_wait hqr hp hl]

end Sys2Proof.Machine
end

section
/-! SUPPORT. Host programs without hard reset come to the words they send, whatever the waits, reads and pauses between them
(30_encoding R64, R66; 41_absorb R85). -/

namespace Sys2Proof.Machine

/-! ### Words sent to an engine -/

/-- The engine `s` has become `t` by taking the words `ws`: once the pending command has completed, `t` is what the words make
of `s`, and an engine that was idle and got no word is idle. -/
structure TookWords (ws : List Word) (s t : State) : Prop where
  settled : execWords ws s.settled = .next t.settled
  idle : ws = [] → s.pend = none → t.pend = none

theorem settled_withWait (s : State) (n d : Nat) : (s.withWait s.pend n d).settled = s.settled := by
  cases hp : s.pend with
  | none => rw [settled_withWait_none, settled_of_idle hp]
  | some w => rw [settled_withWait_some, settled_of_pending hp]

namespace TookWords

variable {s t u : State} {ws ws' : List Word}

theorem refl (s : State) : TookWords [] s s := ⟨rfl, fun _ hp => hp⟩

/-- The model's own wait and count of draws do not matter. -/
theorem withWait (s : State) (n d : Nat) : TookWords [] s (s.withWait s.pend n d) :=
  ⟨congrArg _ (settled_withWait s n d).symm, fun _ hp => hp⟩

theorem append (h : TookWords ws s t) (h' : TookWords ws' t u) : TookWords (ws ++ ws') s u where
  settled := by rw [execWords_append, h.settled, andThen_next, h'.settled]
  idle hnil hp := by
    obtain ⟨hws, hws'⟩ := List.append_eq_nil_iff.mp hnil
    exact h'.idle hws' (h.idle hws hp)

end TookWords

/-! ### Host actions -/

theorem drive_idle {s : State} (hp : s.pend = none) : drive Pins.idle s = .next s :=
  step_idle (s := s.withInputs (Pins.idle :: s.inputs)) rfl hp rfl

/-- An edge with idle pins only lets the pending command wait or complete. -/
theorem drive_idle_tookWords (s : State) : ∃ t, drive Pins.idle s = .next t ∧ TookWords [] s t := by
  cases hp : s.pend with
  | none => exact ⟨s, drive_idle hp, .refl s⟩
  | some w =>
    cases hl : s.latLeft with
    | zero =>
      refine ⟨_, drive_complete rfl hp hl, congrArg _ ?_, fun _ _ => rfl⟩
      rw [clearPend_eq_withWait, settled_withWait_none, settled_of_pending hp]
    | succ n => exact ⟨_, drive_wait rfl hp hl, .withWait s n s.draws⟩

theorem driveFor_idle_tookWords (n : Nat) (s : State) :
    ∃ t, driveFor Pins.idle n s = .next t ∧ TookWords [] s t := by
  induction n generalizing s with
  | zero => exact ⟨s, rfl, .refl s⟩
  | succ n ih =>
    obtain ⟨t, ht, hst⟩ := drive_idle_tookWords s
    obtain ⟨u, hu, htu⟩ := ih t
    exact ⟨u, by rw [driveFor, ht, andThen_next, hu], hst.append htu⟩

/-- A host action other than hard reset gives the engine the word it sends, if it sends one. -/
theorem run_tookWords {a : HostAction} (ha : a.keepsRst = true) (h : HostState) :
    ∃ h', a.run h = .next h' ∧ TookWords a.word?.toList h.engine h'.engine := by
  cases a with
  | send w =>
    obtain ⟨h', hrun, -, hsettled⟩ := run_send_settled w h
    exact ⟨h', hrun, by rw [hsettled]; exact execWords_eq [w] _, nofun⟩
  | wait =>
    obtain ⟨h', hrun, -, hp, hsettled⟩ := run_wait_settled h
    exact ⟨h', hrun, congrArg _ hsettled.symm, fun _ _ => hp⟩
  | read rd idx =>
    refine ⟨_, rfl, ?_⟩
    show TookWords [] h.engine (readDout idx h.engine).2
    rw [readDout_snd]
    exact .withWait h.engine ..
  | rdstat rd =>
    refine ⟨_, rfl, ?_⟩
    show TookWords [] h.engine (readStatus h.engine).2
    rw [readStatus_snd]
    exact .withWait h.engine ..
  | assertRst n => cases ha
  | pause n =>
    obtain ⟨t, ht, htook⟩ := driveFor_idle_tookWords n h.engine
    exact ⟨{ h with engine := t }, by simp only [HostAction.run, ht, andThen_next], htook⟩

/-- A host program without hard reset gives the engine the words it sends, in order. -/
theorem runHost_tookWords {as : List HostAction} (has : ∀ a ∈ as, a.keepsRst = true) (h : HostState) :
    ∃ h', runHost as h = .next h' ∧ TookWords (as.filterMap HostAction.word?) h.engine h'.engine := by
  induction as generalizing h with
  | nil => exact ⟨h, rfl, .refl _⟩
  | cons a as ih =>
    obtain ⟨ha, has⟩ := List.forall_mem_cons.mp has
    obtain ⟨h₁, hrun₁, htook₁⟩ := run_tookWords ha h
    obtain ⟨h₂, hrun₂, htook₂⟩ := ih has h₁
    refine ⟨h₂, by rw [runHost, hrun₁, andThen_next, hrun₂], ?_⟩
    have hwords : (a :: as).filterMap HostAction.word? = a.word?.toList ++ as.filterMap HostAction.word? := by
      cases hw : a.word? <;> simp [hw]
    rw [hwords]
    exact htook₁.append htook₂

/-- With a wait after it, the program leaves an idle engine on which all its words have taken effect. -/
theorem runHost_wait {as : List HostAction} (has : ∀ a ∈ as, a.keepsRst = true) (h : HostState) :
    ∃ h', runHost (as ++ [.wait]) h = .next h' ∧ h'.engine.pend = none ∧
      execWords (as.filterMap HostAction.word?) h.engine.settled = .next h'.engine.settled := by
  obtain ⟨h₁, hrun₁, htook⟩ := runHost_tookWords has h
  obtain ⟨h₂, hrun₂, -, hp, hsettled⟩ := run_wait_settled h₁
  refine ⟨h₂, ?_, hp, hsettled ▸ htook.settled⟩
  rw [runHost_append, hrun₁, andThen_next, runHost, hrun₂, andThen_next, runHost]

/-! ### Chunks of a message -/

/-- R66: `ABSORBS` sends its bytes. -/
theorem sendsMessage_absorbActions (m : List Byte) : SendsMessage (absorbActions m) m :=
  ⟨by simp [absorbActions, absorbWords, List.filterMap_map, Function.comp_def, HostAction.word?],
    by simp [absorbActions, HostAction.keepsRst]⟩

theorem SendsMessage.append {as as' : List HostAction} {m m' : List Byte} (h : SendsMessage as m)
    (h' : SendsMessage as' m') : SendsMessage (as ++ as') (m ++ m') := by
  obtain ⟨hwords, hrst⟩ := h
  obtain ⟨hwords', hrst'⟩ := h'
  exact ⟨by simp [hwords, hwords', absorbWords], List.forall_mem_append.mpr ⟨hrst, hrst'⟩⟩

/-- Two idle engines that are settled alike agree in every field of the spec. -/
theorem sameSpec_of_settled {s t : State} (hs : s.pend = none) (ht : t.pend = none) (h : s.settled = t.settled) :
    SameSpec s t := by
  rw [eq_settled_of_idle hs, eq_settled_of_idle ht, h]
  exact ⟨⟨rfl, rfl, rfl, rfl⟩, rfl, rfl, rfl, rfl, rfl⟩

/-- R85: two ways of sending a message, with the same actions and a wait after it, leave the same engine of the spec. -/
theorem SendsMessage.runHost_wait_sameSpec {as bs cs : List HostAction} {m : List Byte} (has : SendsMessage as m)
    (hbs : SendsMessage bs m) (hcs : ∀ a ∈ cs, a.keepsRst = true) (h : HostState) :
    ∃ u v, runHost (as ++ cs ++ [.wait]) h = .next u ∧ runHost (bs ++ cs ++ [.wait]) h = .next v ∧
      SameSpec u.engine v.engine := by
  obtain ⟨hwordsa, hrsta⟩ := has
  obtain ⟨hwordsb, hrstb⟩ := hbs
  obtain ⟨u, hrunu, hpu, hu⟩ := runHost_wait (List.forall_mem_append.mpr ⟨hrsta, hcs⟩) h
  obtain ⟨v, hrunv, hpv, hv⟩ := runHost_wait (List.forall_mem_append.mpr ⟨hrstb, hcs⟩) h
  rw [List.filterMap_append, hwordsa] at hu
  rw [List.filterMap_append, hwordsb, hu] at hv
  exact ⟨u, v, hrunu, hrunv, sameSpec_of_settled hpu hpv (Host.Outcome.next.inj hv)⟩

/-- R87: any actions that send a message, then FINALIZE and WAIT, leave the digest of the message in a cleared engine. -/
theorem SendsMessage.runHost_digest {as : List HostAction} {m : List Byte} (hm : SendsMessage as m) {h : HostState}
    (hp : h.engine.pend = none) (hc : Cleared h.engine) :
    ∃ u, runHost (as ++ [.send (encode .finalize), .wait]) h = .next u ∧ u.engine.dout = messageDigest m ∧
      u.engine.dvalid = true ∧ u.engine.err = h.engine.err ∧ u.engine.pend = none ∧ Cleared u.engine := by
  have hcs : ∀ a ∈ [HostAction.send (encode .finalize)], a.keepsRst = true := by simp [HostAction.keepsRst]
  obtain ⟨v, u, hrunv, hrunu, hsame⟩ := (sendsMessage_absorbActions m).runHost_wait_sameSpec hm hcs h
  obtain ⟨n, d, hdigest⟩ := Machine.runHost_digest m hp hc
  rw [List.append_assoc] at hrunv hrunu
  cases hrunv.symm.trans hdigest
  exact ⟨u, hrunu, hsame.dout.symm, hsame.dvalid.symm, hsame.err.symm, hsame.pend.symm,
    hc.congr ⟨hsame.st, hsame.blk, hsame.fill, hsame.ck⟩⟩

/-- An idle engine that gets no word keeps every field of the spec. -/
theorem SendsMessage.runHost_nil {as : List HostAction} (hm : SendsMessage as []) {h : HostState}
    (hp : h.engine.pend = none) : ∃ u, runHost as h = .next u ∧ SameSpec u.engine h.engine := by
  obtain ⟨hwords, hrst⟩ := hm
  obtain ⟨u, hrun, htook⟩ := runHost_tookWords hrst h
  rw [hwords] at htook
  have hsettled : h.engine.settled = u.engine.settled := Host.Outcome.next.inj htook.settled
  exact ⟨u, hrun, sameSpec_of_settled (htook.idle rfl hp) hp hsettled.symm⟩

/-- Settles O43: chunks and the actions between them send the whole message (`SendsMessage.append`), and how a message is sent
does not matter (`SendsMessage.runHost_wait_sameSpec`). -/
theorem chunkingInvariance : Obligations.ChunkingInvariance := by
  refine ⟨fun h m m' as as' hm hm' => ?_, fun h m m' as as' hm hm' hp hc => (hm.append hm').runHost_digest hp hc,
    fun h as hm hp => hm.runHost_nil hp, fun bs bs' rd rd' idx => ⟨?_, ?_⟩⟩
  · have hsame := (hm.append hm').runHost_wait_sameSpec (sendsMessage_absorbActions (m ++ m')) (cs := []) nofun h
    rwa [List.append_nil, List.append_nil] at hsame
  · have hbs : assemble [.absorbs bs] = absorbActions (bs.map Imm8.value) := by simp [assemble, AsmStmt.expand]
    rw [hbs]
    exact sendsMessage_absorbActions _
  · have hreads : SendsMessage [.rdstat rd, .wait, .read rd' (BitVec.ofNat 4 idx)] [] := ⟨rfl, by simp [HostAction.keepsRst]⟩
    have hbs : assemble [.absorbs bs, .rdstat rd, .wait, .read rd' idx, .absorbs bs'] =
        absorbActions (bs.map Imm8.value) ++
          ([.rdstat rd, .wait, .read rd' (BitVec.ofNat 4 idx)] ++ absorbActions (bs'.map Imm8.value)) := by
      simp [assemble, AsmStmt.expand]
    rw [hbs]
    exact (sendsMessage_absorbActions _).append (hreads.append (sendsMessage_absorbActions _))

end Sys2Proof.Machine
end

section
/-! SUPPORT. The S-box permutes the bytes, and each datapath loop is the spec's chain of byte updates
(40_datapath R71 to R76). -/

namespace Sys2Proof.Machine

/-! ### The ROM as a permutation -/

/-- The index at which the ROM holds the byte `y`. -/
def sboxIndex (y : Byte) : Byte := BitVec.ofNat 8 (sboxRows.flatten.idxOf y)

/-- R71: the entry at `x` stands nowhere before `x`, so its index is `x`. -/
theorem sboxIndex_sbox : ∀ x : Byte, sboxIndex (sbox x) = x := by decide +kernel

/-- Settles O23: `sboxIndex_sbox` makes the S-box injective, and an injective map of a finite type to itself is bijective;
the fixed points and the worked entries are read off the table. -/
theorem sboxIsAPermutation : Obligations.SboxIsAPermutation := by
  have hinj : Function.Injective sbox := Function.LeftInverse.injective sboxIndex_sbox
  have hfix : ∀ x, sbox x ≠ x := by decide +kernel
  exact ⟨Finite.injective_iff_bijective.mp hinj, hfix, by decide +kernel⟩

/-! ### Bytes and the carried scalar -/

theorem toList_getD {n : Nat} (v : Bytes n) (i : Nat) (hi : i < n) : v.toList.getD i 0 = v[i] := by simp [hi]

/-- The scalar a loop carries before its update `i`, where the loop writes the bytes `bs` in order: the seed, then the byte
written last (R73 `last`, R76 `t`). -/
def carried (seed : Byte) (bs : List Byte) (i : Nat) : Byte := (seed :: bs).getD i 0

@[simp] theorem carried_succ (seed : Byte) (bs : List Byte) (i : Nat) : carried seed bs (i + 1) = bs.getD i 0 := rfl

theorem carried_eq_ite (seed : Byte) (bs : List Byte) (i : Nat) :
    carried seed bs i = if i = 0 then seed else bs.getD (i - 1) 0 := by
  cases i <;> rfl

/-- After its last update a loop carries the last byte it wrote. -/
theorem carried_length (seed : Byte) (bs : List Byte) : carried seed bs bs.length = bs.getLastD seed := by
  cases bs with
  | nil => rfl
  | cons b bs => simp [List.getD, List.getLastD_eq_getLast?, List.getLast?_eq_getElem?]

/-! ### Accumulate -/

/-- R73: what `Accumulate` writes to byte `i`. -/
theorem accumulate_getElem (ck m : Bytes 16) (i : Nat) (hi : i < 16) :
    (accumulate ck m)[i] = ck[i] ^^^ sbox (m[i] ^^^ carried ck[15] (accumulate ck m).toList i) := by
  have h := accumulateFrom_getElem ck.toList m.toList ck[15] i (by simpa) (by simpa) (by simpa)
  simp only [← carried_eq_ite, ← accumulate_toList] at h
  exact h

/-- Settles O24: the chain is the scalar the loop carries, by `accumulate_getElem`. -/
theorem accumulateChain : Obligations.AccumulateChain := fun ck m =>
  ⟨carried ck[15] (accumulate ck m).toList, rfl, fun i hi => ⟨accumulate_getElem ck m i hi, toList_getD _ i hi⟩⟩

/-! ### Expand -/

theorem regionA_eq_of_getElem {st st' : Bytes 48} (h : ∀ i (_ : i < 16), st[i] = st'[i]) : regionA st = regionA st' :=
  Vector.ext fun i hi => by rw [regionA_getElem, regionA_getElem, h i hi]

/-! The three regions of R75. -/

section
variable (st : Bytes 48) (m : Bytes 16) (i : Nat) (hi : i < 16)

theorem expand_getElem_A : (expand st m)[i] = st[i] := by
  simp [expand, hi]

theorem expand_getElem_B : (expand st m)[16 + i] = m[i] := by
  simp [expand, hi]

theorem expand_getElem_C : (expand st m)[32 + i] = m[i] ^^^ st[i] := by
  have hA : ¬ 32 + i < 16 := by omega
  have hB : 32 + i - 16 = 16 + i := by omega
  simp [expand, List.getElem_append, hA, hB]

end

/-- Settles O25: the expanded state region by region; it reads region A only (`expand_congr`). -/
theorem expandRegions : Obligations.ExpandRegions :=
  ⟨fun st m i hi => ⟨expand_getElem_A st m i hi, expand_getElem_B st m i hi, expand_getElem_C st m i hi⟩,
    fun _ _ m h => expand_congr (regionA_eq_of_getElem h) m⟩

/-! ### Mix -/

/-- R76: the bytes and `t` before round `j`. -/
def beforeRound (st : Bytes 48) (j : Nat) : List Byte × Byte := mixRounds (List.range j) (st.toList, 0)

theorem beforeRound_succ (st : Bytes 48) (j : Nat) : beforeRound st (j + 1) = mixRound (beforeRound st j) j := by
  rw [beforeRound, List.range_succ, mixRounds_append]; rfl

@[simp] theorem length_beforeRound (st : Bytes 48) (j : Nat) : (beforeRound st j).1.length = 48 := by
  simp [beforeRound]

/-- R76, the inner loop: round `j` XORs byte `k` with the S-box at the scalar it carries. -/
theorem beforeRound_succ_getD (st : Bytes 48) (j k : Nat) (hk : k < 48) :
    (beforeRound st (j + 1)).1.getD k 0 =
      (beforeRound st j).1.getD k 0 ^^^ sbox (carried (beforeRound st j).2 (beforeRound st (j + 1)).1 k) := by
  have h := mixPass_getElem (beforeRound st j).1 (beforeRound st j).2 k (by simpa) (by simpa)
  rw [← carried_eq_ite] at h
  rw [beforeRound_succ]
  simpa [mixRound, hk] using h

/-- R76, the end of round `j`: `j` is added to the scalar carried out of the pass. -/
theorem beforeRound_succ_snd (st : Bytes 48) (j : Nat) :
    (beforeRound st (j + 1)).2 =
      carried (beforeRound st j).2 (beforeRound st (j + 1)).1 48 + BitVec.ofNat 8 j := by
  rw [← length_beforeRound st (j + 1), carried_length, beforeRound_succ, mixRound, mixPass_snd]

theorem mix_getElem (st : Bytes 48) (k : Nat) (hk : k < 48) : (mix st)[k] = (beforeRound st 18).1.getD k 0 := by
  rw [beforeRound, ← mix_toList, toList_getD]

/-- Settles O26: `v` is the bytes before each round and `t` the scalar each round carries. -/
theorem mixChain : Obligations.MixChain := fun st =>
  ⟨fun j k => (beforeRound st j).1.getD k 0, fun j => carried (beforeRound st j).2 (beforeRound st (j + 1)).1,
    toList_getD st, rfl, fun j k _ hk => ⟨beforeRound_succ_getD st j k hk, rfl⟩,
    fun j _ => beforeRound_succ_snd st j, mix_getElem st⟩

end Sys2Proof.Machine
end

section
/-! SUPPORT. The meaning of ABSORB: the byte staged, the block drained, and the frame (41_absorb R82, R83). -/

namespace Sys2Proof.Machine

/-- R82, and R32 by the model's choice (log 8): both branches leave the buffer with the byte staged, a drain keeps it. -/
theorem effectOf_absorb_blk (b : Byte) (s : State) : (effectOf (.absorb b) s).blk = stageByte s.fill b s.blk := by
  by_cases h : s.fill = 15#4
  · rw [effectOf_absorb_drain s b h]; rfl
  · rw [effectOf_absorb_stage s b h]; rfl

/-- ABSORB writes no byte of `BLK` but `BLK[FILL]`. -/
theorem effectOf_absorb_blk_getElem_of_ne (b : Byte) (s : State) {i : Nat} (hi : i < 16) (hne : i ≠ s.fill.toNat) :
    (effectOf (.absorb b) s).blk[i] = s.blk[i] := by
  simp only [effectOf_absorb_blk, stageByte_getElem, if_neg hne]

/-- R83: in a full block the byte staged is the last. -/
theorem stageByte_of_full {fill : BitVec 4} (h : fill = 15#4) (b : Byte) (blk : Bytes 16) :
    stageByte fill b blk = blk.set 15 b := by
  subst h; rfl

/-- Settles O10: the outputs and `ERR` are other commands' (`effectOf_digest`, `effectOf_err`), no command writes `PEND` or
the model's own fields (`effectOf_outside`), and only a drain writes `ST` and `CK` (`effectOf_absorb_sums`). -/
theorem absorbFrame : Obligations.AbsorbFrame := by
  intro b s t h
  obtain rfl : effectOf (.absorb b) s = t := Host.Outcome.next.inj ((exec_eq _ s).symm.trans h)
  obtain ⟨hdout, hdvalid⟩ := effectOf_digest s (i := .absorb b) nofun
  obtain ⟨hpend, hlat, hdraws, hinputs⟩ := effectOf_outside (.absorb b) s
  exact ⟨hdout, hdvalid, effectOf_err s nofun, hpend, hlat, hdraws, hinputs,
    fun i hi hne => effectOf_absorb_blk_getElem_of_ne b s hi hne, effectOf_absorb_sums s b⟩

/-- Settles O6: below a full block the effect is to stage the byte and advance `FILL`. -/
theorem absorbStagesAByte : Obligations.AbsorbStagesAByte := by
  intro b s hfill
  rw [exec_eq, effectOf_absorb_stage s b hfill]
  rfl

/-- Settles O7: in a full block the effect is to stage the byte as the last and drain. -/
theorem absorbDrainsAFullBlock : Obligations.AbsorbDrainsAFullBlock := by
  intro b s hfill
  rw [exec_eq, effectOf_absorb_drain s b hfill, ← stageByte_of_full hfill]
  rfl

end Sys2Proof.Machine
end

section
/-! SUPPORT. FINALIZE and RESET as frames, the padded block, and the digests of short messages (42_finalize R87 to R91,
43_reset R96). -/

namespace Sys2Proof.Machine

/-! ### The padded block -/

/-- R88: of `n` positions, `n - k` stand at `k` or after it; the padded ones are those from `FILL` on. -/
theorem length_filter_le_range (n k : Nat) : ((List.range n).filter fun i => k ≤ i).length = n - k := by
  rw [← List.Ico.zero_bot, List.Ico.filter_le, List.Ico.length, Nat.zero_max]

theorem padded_getElem_of_lt {fill : BitVec 4} (blk : Bytes 16) {i : Nat} (hi : i < 16) (h : i < fill.toNat) :
    (padded fill blk)[i] = blk[i] := by
  rw [padded_getElem, if_pos h]

theorem padded_getElem_of_ge {fill : BitVec 4} (blk : Bytes 16) {i : Nat} (hi : i < 16) (h : fill.toNat ≤ i) :
    (padded fill blk)[i] = padValue fill := by
  rw [padded_getElem, if_neg (Nat.not_lt.mpr h)]

/-- R89: with no byte staged the whole block is padding. -/
theorem padded_zero_toList (blk : Bytes 16) : (padded 0#4 blk).toList = List.replicate 16 (padValue 0#4) := rfl

/-- Settles O28: the block byte by byte (`padded_getElem_of_lt`, `padded_getElem_of_ge`) with the pad value of
`padValue_toNat`; `FILL ≤ 15`, so the last byte is always padded. -/
theorem paddingRule : Obligations.PaddingRule := by
  intro fill blk
  have hfill : fill.toNat ≤ 15 := Nat.le_of_lt_succ fill.isLt
  have hpad := padValue_toNat fill
  refine ⟨hpad, by omega, by omega, fun i hi h => padded_getElem_of_ge blk hi h,
    fun i hi h => padded_getElem_of_lt blk hi h, length_filter_le_range 16 _,
    padded_getElem_of_ge blk (by decide) hfill, ?_⟩
  rintro rfl
  exact padded_zero_toList blk

/-- Settles O29: with `FILL = 0` by `padded_zero_toList`; with `FILL = 15` every byte but the last is below `FILL`. -/
theorem padCornerCases : Obligations.PadCornerCases := by
  refine ⟨padded_zero_toList, fun blk => Vector.ext fun i hi => ?_⟩
  rw [Vector.getElem_set]
  by_cases h : 15 = i
  · subst h
    rw [if_pos rfl, padded_getElem_of_ge (fill := 15#4) blk hi (Nat.le_refl 15)]
    rfl
  · have hlt : i < (15#4).toNat := Nat.lt_of_le_of_ne (Nat.le_of_lt_succ hi) (Ne.symm h)
    rw [if_neg h, padded_getElem_of_lt blk hi hlt]

/-! ### The commands -/

/-- Settles O8: the operations of R87 in order, each field read off the last one that writes it. -/
theorem finalizeResult : Obligations.FinalizeResult := by
  intro s block sum
  rw [exec_eq, effectOf_finalize]
  rfl

/-- The state a command answers is its effect. -/
theorem eq_effectOf_of_exec {i : Instr} {s t : State} (h : exec i s = .next t) : t = effectOf i s :=
  Host.Outcome.next.inj (h.symm.trans (exec_eq i s))

/-- Settles O11: no command writes `PEND` or the model's own fields (`effectOf_outside`), FINALIZE does not write `ERR`
(`effectOf_err`), and RESET does not write the digest (`effectOf_digest`). -/
theorem finalizeAndResetFrame : Obligations.FinalizeAndResetFrame := by
  refine ⟨fun s t h => ?_, fun s t h => ?_⟩ <;> obtain rfl := eq_effectOf_of_exec h
  · exact ⟨effectOf_err s nofun, effectOf_outside .finalize s⟩
  · obtain ⟨hdout, hdvalid⟩ := effectOf_digest s (i := .reset) nofun
    exact ⟨hdout, hdvalid, effectOf_outside .reset s⟩

/-! ### Digests -/

theorem cleared_effectOf_finalize (s : State) : Cleared (effectOf .finalize s) := cleared_clearWorking _

/-- R89: FINALIZE on a cleared engine computes the digest of the empty message. -/
theorem Cleared.effectOf_finalize {s : State} (h : Cleared s) :
    effectOf .finalize s = { s with dout := messageDigest [], dvalid := true, absorbing := false } :=
  h.absorbed_nil.finalize h

/-- Settles O31: the first FINALIZE leaves the engine cleared, so the second hashes the empty message
(`Cleared.effectOf_finalize`); neither writes `ERR`. -/
theorem repeatedFinalizeHashesTheEmptyMessage : Obligations.RepeatedFinalizeHashesTheEmptyMessage := by
  intro s
  have hsecond := (cleared_effectOf_finalize s).effectOf_finalize
  refine ⟨effectOf .finalize (effectOf .finalize s), by rw [exec_eq, andThen_next, exec_eq], ?_⟩
  rw [hsecond]
  exact ⟨rfl, rfl, effectOf_err s nofun, (cleared_effectOf_finalize s).congr ⟨rfl, rfl, rfl, rfl⟩, rfl⟩

/-- The digest of a message that fits into one block with its padding. -/
theorem messageDigest_of_length_lt {m : List Byte} (h : m.length < 16) :
    messageDigest m =
      let block := blockOf (padMessage m) 0
      regionA (compress (compress (zeroBytes 48) block) (accumulate (zeroBytes 16) block)) := by
  rw [messageDigest_eq, Nat.div_eq_of_lt h, afterBlocks]

/-- Settles O30: each message fits into one block (`messageDigest_of_length_lt`); that block's two compressions are
evaluated. -/
theorem knownDigests : Obligations.KnownDigests := by
  refine ⟨?_, ?_, ?_⟩ <;> rw [messageDigest_of_length_lt (by decide)]
  · decide +kernel
  · decide +kernel
  · decide +kernel

end Sys2Proof.Machine
end

section
/-! SUPPORT. RESET: its result, RESET of a cleared idle engine, and RESET twice (43_reset R96, R97). -/

namespace Sys2Proof.Machine

/-- R97: clearing an idle engine whose working state is already zero changes nothing. -/
theorem Cleared.clearWorking_eq {s : State} (h : Cleared s) (hidle : s.absorbing = false) : s.clearWorking = s := by
  obtain ⟨hst, hblk, hfill, hck⟩ := h
  cases s
  cases hst; cases hblk; cases hfill; cases hck; cases hidle
  rfl

/-- R97: RESET is idempotent, since each field it writes takes a value that depends on no other. -/
theorem effectOf_reset_idem (s : State) : effectOf .reset (effectOf .reset s) = effectOf .reset s := rfl

/-- Settles O9: the effect of RESET is to clear the working state and then `ERR`. -/
theorem resetResult : Obligations.ResetResult := by
  intro s
  rw [exec_eq, effectOf_reset]
  rfl

/-- Settles O32: on a cleared idle engine the clear changes nothing (`Cleared.clearWorking_eq`), which leaves `ERR ← 0`; the
second RESET repeats the first (`effectOf_reset_idem`). -/
theorem repeatedResetAndIdleReset : Obligations.RepeatedResetAndIdleReset := by
  refine ⟨fun s hcleared hidle => ?_, fun s => ?_⟩
  · rw [exec_eq, effectOf_reset, hcleared.clearWorking_eq hidle]
    rfl
  · rw [exec_eq, andThen_next, exec_eq, effectOf_reset_idem]

end Sys2Proof.Machine
end

section
/-! SUPPORT. The one exception beside the commands, the idle edge, and an edge of one engine among several
(60_exceptions R102, R112, R114). -/

namespace Sys2Proof.Machine

/-! ### The illegal-command exception -/

section
variable {w : Word} (h : (decode w).instr? = none) (s : State)

include h in
theorem execWord_of_illegal : execWord w s = .next { s with err := true } := by
  obtain ⟨why, w', hd⟩ := instr?_eq_none_iff.mp h
  rw [execWord_eq, effectOfWord_of_illegal hd]

include h in
/-- R7: an illegal word waits LAT_ILLEGAL, whatever its cause. -/
theorem latencyKind_of_illegal : latencyKind w s = .illegal := by
  obtain ⟨why, w', hd⟩ := instr?_eq_none_iff.mp h
  simp [latencyKind, hd]

/-- R102: ABSORB neither reads nor writes `ERR`, so after an exception it does what it would have done. -/
theorem effectOf_absorb_withErr (b : Byte) (e : Bool) :
    effectOf (.absorb b) { s with err := e } = { effectOf (.absorb b) s with err := e } := by
  by_cases hf : s.fill = 15#4
  · rw [effectOf_absorb_drain s b hf, effectOf_absorb_drain { s with err := e } b hf]
    rfl
  · rw [effectOf_absorb_stage s b hf, effectOf_absorb_stage { s with err := e } b hf]
    rfl

theorem execWord_absorb (b : Byte) : execWord (encode (.absorb b)) s = .next (effectOf (.absorb b) s) := by
  rw [execWord_eq, effectOfWord_encode]

end

/-- Settles O12: completion is `complete_of_illegal`, acceptance is `acceptanceEdge` with the latency of an illegal word, and
the ABSORB after it is `effectOf_absorb_withErr`; the worked example is evaluated. -/
theorem illegalCommandException : Obligations.IllegalCommandException := by
  refine ⟨fun w s h => ⟨complete_of_illegal h s, fun hp => ?_, fun b u hu => ?_⟩, by decide, ?_⟩
  · rw [acceptanceEdge _ _ hp rfl rfl, Pins.offer, latencyKind_of_illegal h]
  · rw [execWord_absorb] at hu
    cases hu
    rw [execWord_of_illegal h, andThen_next, execWord_absorb, effectOf_absorb_withErr]
  · let t := effectOf (.absorb 0x61) State.reset
    exact ⟨t, { t with err := true }, exec_eq _ _, complete_of_illegal (by decide) t, by decide, by decide, rfl⟩

/-! ### The idle edge -/

/-- Settles O19: `step_idle`. -/
theorem idleEdgeKeepsTheState : Obligations.IdleEdgeKeepsTheState :=
  fun _ hp hr hv => step_idle hr hp hv

/-! ### One engine among several -/

theorem stepInstance_of_none {k : Nat} {engines : List State} (hk : engines[k]? = none) :
    stepInstance k engines = .next engines := by
  simp [stepInstance, hk]

theorem stepInstance_of_some {k : Nat} {engines : List State} {s t : State} (hk : engines[k]? = some s)
    (hs : step s = .next t) : stepInstance k engines = .next (engines.set k t) := by
  simp [stepInstance, hk, hs]

/-- Settles O49: the engine's step goes on (`everyStepGoesOn`) and the list is set at `k` only; no engine at `k`, no change. -/
theorem instancesAreIndependent : Obligations.InstancesAreIndependent := by
  intro engines k
  cases hk : engines[k]? with
  | none => exact ⟨engines, stepInstance_of_none hk, rfl, fun _ _ => rfl, nofun⟩
  | some s =>
    obtain ⟨t, hs⟩ := everyStepGoesOn.1 s
    refine ⟨engines.set k t, stepInstance_of_some hk hs, List.length_set, fun j hj => List.getElem?_set_ne hj.symm, ?_⟩
    rintro _ ⟨rfl⟩
    obtain ⟨hlt, -⟩ := List.getElem?_eq_some_iff.mp hk
    exact ⟨t, hs, List.getElem?_set_self hlt⟩

end Sys2Proof.Machine
end

section
/-! SUPPORT. The clock edge with `rst = 1` and what the ports show after it (70_reset_and_hazards R116, R117). -/

namespace Sys2Proof.Machine

/-- R104, R116: with `rst = 1` the edge is a hard reset, whatever is pending, due or offered. -/
theorem clockEdge_hardReset {p : Pins} (hr : p.rst = true) (s : State) : clockEdge p s = .next s.hardReset :=
  calc clockEdge p s = step (s.withInputs (p :: s.inputs)) := (step_withInputs_cons p s).symm
    _ = .next s.hardReset := step_hardReset hr

/-- R26: while the engine is idle, STATUS shows the fields above a zero `BUSY` bit, and no free value. -/
theorem readStatus_fst_of_idle {s : State} (hp : s.pend = none) : (readStatus s).1 = s.statusFields ++ 0#1 := by
  simp [readStatus, State.statusByte, State.busy, hp]

/-- R57: while `rst = 1` no word can be accepted. -/
theorem cmdReady_rst (s : State) : s.cmdReady true = false := Bool.and_false _

section
variable (s : State)

/-- R116: the fields STATUS shows are all zero after the edge. -/
theorem readStatus_hardReset : (readStatus s.hardReset).1 = 0x00#8 :=
  calc (readStatus s.hardReset).1 = s.hardReset.statusFields ++ 0#1 := readStatus_fst_of_idle rfl
    _ = State.reset.statusFields ++ 0#1 := rfl
    _ = 0x00#8 := by decide

/-- R42, R116: no FINALIZE is pending after the edge, so the read answers a byte of the zero `DOUT`. -/
theorem readDout_hardReset (sel : BitVec 4) : (readDout sel s.hardReset).1 = 0x00#8 := by
  rw [readDout_of_not_finalizePending rfl]
  exact zeroBytes_getElem 16 sel.toNat sel.isLt

theorem cmdReady_hardReset : s.hardReset.cmdReady false = true := rfl

end

/-- Settles O15: the edge is `clockEdge_hardReset`; what STATUS, `dout_byte` and `cmd_ready` show after it are the lemmas on
`hardReset` above. -/
theorem hardResetEdge : Obligations.HardResetEdge :=
  ⟨cmdReady_rst, fun _ s hr => ⟨s.hardReset, clockEdge_hardReset hr s, rfl, s.hardReset_pend, readStatus_hardReset s,
    readDout_hardReset s, cmdReady_hardReset s⟩⟩

/-- Settles O16: `step_hardReset` from the power-up state; the reset fields depend on none of its draws. -/
theorem powerUpThenReset : Obligations.PowerUpThenReset := by
  intro p ps hr
  have hpins : (State.powerUp (p :: ps)).pins.rst = true := hr
  exact ⟨_, step_hardReset hpins⟩

end Sys2Proof.Machine
end
